-- ==== Sys2Proof/Word.lean ====
section
/-! DEFINITION. The two bit-vector types of the block: the 64-bit register value (00_scope.md section 4, register width)
and the buffer byte (10_state.md R29, R30). -/

namespace Sys2Proof

/-- A register value or a command word: 64 bits, unsigned (00_scope.md R4 and section 4). -/
abbrev Word := BitVec 64

/-- One byte of IN or OUT. -/
abbrev Byte := BitVec 8

end Sys2Proof
end

