-- ==== Sys2Proof/Syntax.lean ====
section
/-! DEFINITION. The instruction set of the block: its six commands (00_scope.md R1, 30_encoding.md R70), one constructor
for each row of opcode_table.json. A command has no register field and no immediate, so no constructor has an argument. -/

namespace Sys2Proof

/-- The six commands. -/
inductive Instr where
  /-- VLEN: the encoded length of VALUE_IN (40_varint.md R103). -/
  | vlen
  /-- VENC: encode VALUE_IN into the output slice (40_varint.md R105). -/
  | venc
  /-- VDEC: decode a varint from the input slice (40_varint.md R107). -/
  | vdec
  /-- FHDEC: decode a frame header from the input slice (41_frame.md R132). -/
  | fhdec
  /-- FHENC: encode a frame header into the output slice (41_frame.md R134). -/
  | fhenc
  /-- FDEC: decode a frame header and locate its payload (41_frame.md R137). -/
  | fdec
  deriving DecidableEq, Repr

end Sys2Proof
end

