-- ==== Sys2Proof/Decode.lean ====
section
/-! DEFINITION. The command decoder and, after it, the encoder (30_encoding.md R70, R71). The command word is the 64-bit
value written to CMD; it is not stored in bytes and has no byte order (20_memory.md R52, R64), so the decoder reads a word. -/

namespace Sys2Proof

/-- RSVD, bits 63:4 of a command word (R70). -/
def rsvdField (w : Word) : BitVec 60 := w.extractLsb' 4 60

/-- OP, bits 3:0 of a command word (R70). -/
def opField (w : Word) : BitVec 4 := w.extractLsb' 0 4

/-- A command word is legal: RSVD is zero and OP is one of 1 to 6 (R70, R71). -/
def legalCommandWord (w : Word) : Bool :=
  rsvdField w == 0 && decide (1 ≤ (opField w).toNat) && decide ((opField w).toNat ≤ 6)

/-- Why a command word is illegal (30_encoding.md R71). -/
inductive DecodeError where
  /-- A bit of RSVD (63:4) is set. -/
  | reservedBits
  /-- RSVD is zero and OP is 0x0 or 0x7 to 0xF. -/
  | reservedOp
  deriving DecidableEq, Repr

/-- The command with operation number `op` (R70's command map). -/
def commandOfOp (op : BitVec 4) : Option Instr :=
  match op.toNat with
  | 1 => some .vlen
  | 2 => some .venc
  | 3 => some .vdec
  | 4 => some .fhdec
  | 5 => some .fhenc
  | 6 => some .fdec
  | _ => none

/-- The command a word written to CMD selects, or the reason it selects none (R70, R71). -/
def decode (w : Word) : Except DecodeError Instr :=
  if rsvdField w = 0 then
    match commandOfOp (opField w) with
    | some i => .ok i
    | none => .error .reservedOp
  else .error .reservedBits

/-- The command word of a command: the `match` column of R70. -/
def encode : Instr → Word
  | .vlen => 0x0000000000000001
  | .venc => 0x0000000000000002
  | .vdec => 0x0000000000000003
  | .fhdec => 0x0000000000000004
  | .fhenc => 0x0000000000000005
  | .fdec => 0x0000000000000006

/-- The mnemonic of a command, as opcode_table.json spells it. -/
def mnemonic : Instr → String
  | .vlen => "VLEN"
  | .venc => "VENC"
  | .vdec => "VDEC"
  | .fhdec => "FHDEC"
  | .fhenc => "FHENC"
  | .fdec => "FDEC"

/-- One row of the command map, in the form of opcode_table.json: a word is the row's command if its bits under `mask`
are those of `pattern`. -/
structure OpRow where
  command : Instr
  mask : Word
  pattern : Word
  deriving DecidableEq, Repr

/-- The command map of R70, row by row, compared under a mask of all ones. -/
def opTable : List OpRow :=
  [⟨.vlen, 0xFFFFFFFFFFFFFFFF, 0x0000000000000001⟩,
   ⟨.venc, 0xFFFFFFFFFFFFFFFF, 0x0000000000000002⟩,
   ⟨.vdec, 0xFFFFFFFFFFFFFFFF, 0x0000000000000003⟩,
   ⟨.fhdec, 0xFFFFFFFFFFFFFFFF, 0x0000000000000004⟩,
   ⟨.fhenc, 0xFFFFFFFFFFFFFFFF, 0x0000000000000005⟩,
   ⟨.fdec, 0xFFFFFFFFFFFFFFFF, 0x0000000000000006⟩]

/-- The command word whose low `nbits` bits are those of `w`, every bit above them zero. -/
def tableWord (nbits w : Nat) : Nat := w % 2 ^ nbits

/-- What the decoder reads from a table word: none if it is refused, or if it does not fit the 64 bits of CMD. -/
def decodeTableWord (nbits w : Nat) : Option Instr :=
  if tableWord nbits w < 2 ^ 64 then
    match decode (BitVec.ofNat 64 (tableWord nbits w)) with
    | .ok i => some i
    | .error _ => none
  else none

end Sys2Proof
end

