-- ==== Sys2Proof/Config.lean ====
section
/-! DEFINITION. What an implementation fixes (00_scope.md R3: BASE, IN_MAX, OUT_MAX) and the free values the spec leaves
open (70_reset_and_hazards.md R197, R198, R201). Every constant that has no body here is open: nothing can be proved of its value. -/

namespace Sys2Proof

/-- The parameters a model of the block takes as arguments (00_scope.md R3). -/
structure Params where
  /-- BASE: the physical address of the register block. -/
  base : Nat
  /-- IN_MAX: the size of the input buffer in bytes. -/
  inMax : Nat
  /-- OUT_MAX: the size of the output buffer in bytes. -/
  outMax : Nat
  deriving DecidableEq, Repr

/-- Which 2^18-byte frame of the address space BASE names. Open (93 I14). Log 1. -/
opaque Config.baseFrame : Nat

/-- What decides IN_MAX. Open (93 I14). Log 1. -/
opaque Config.inSize : Nat

/-- What decides OUT_MAX. Open (93 I14). Log 1. -/
opaque Config.outSize : Nat

/-- The parameters of the machine `State.reset` describes. Every legal parameter set of R3 is one of these for some
values of the three open constants, and each is legal. Log 1. -/
def Config.params : Params where
  base := Config.baseFrame * 2 ^ 18
  inMax := Config.inSize % 65521 + 16
  outMax := Config.outSize % 65521 + 16

/-- The 64-bit value the n-th free draw gives: a result-register read while BUSY = 1 (R197). Log 4. -/
opaque Config.freeWord : Nat → Word

/-- The byte the n-th free draw gives: an OUT read while BUSY = 1 (R198), a host read of an unwritten byte (R201). Log 4. -/
opaque Config.freeByte : Nat → Byte

end Sys2Proof
end

