-- ==== Sys2Proof/Machine/Flags.lean ====
section
/-! DEFINITION. The completion codes of STATUS.CODE (60_exceptions.md R160), the codec errors and their codes (R162), and
the composition of the STATUS word (10_state.md R24). STATUS.BUSY and STATUS.CODE are the block's only condition state (R33). -/

namespace Sys2Proof.Machine

/-- The completion codes, by R160's names. -/
inductive Code where
  | ok
  | varintBufferTooSmall
  | varintValueTooLarge
  | varintInvalidEncoding
  | frameBufferTooSmall
  | frameLengthExceedsInput
  | frameVarintBufferTooSmall
  | frameVarintValueTooLarge
  | frameVarintInvalidEncoding
  | illegalCommand
  | windowError
  | pending
  | none
  deriving DecidableEq, Repr

/-- The errors of the varint codec (40_varint.md, the types). -/
inductive VarIntError where
  | bufferTooSmall
  | valueTooLarge
  | invalidEncoding
  deriving DecidableEq, Repr

/-- The errors of the frame codec (41_frame.md, the types). -/
inductive FrameError where
  | bufferTooSmall
  | lengthExceedsInput
  | varint (e : VarIntError)
  deriving DecidableEq, Repr

/-- The number of each completion code (R160). -/
def codeByte : Code → Byte
  | .ok => 0x00
  | .varintBufferTooSmall => 0x01
  | .varintValueTooLarge => 0x02
  | .varintInvalidEncoding => 0x03
  | .frameBufferTooSmall => 0x11
  | .frameLengthExceedsInput => 0x12
  | .frameVarintBufferTooSmall => 0x21
  | .frameVarintValueTooLarge => 0x22
  | .frameVarintInvalidEncoding => 0x23
  | .illegalCommand => 0xF1
  | .windowError => 0xF2
  | .pending => 0xFE
  | .none => 0xFF

/-- The code a varint command reports for a varint error (R160, R162). -/
def varintErrorCode : VarIntError → Code
  | .bufferTooSmall => .varintBufferTooSmall
  | .valueTooLarge => .varintValueTooLarge
  | .invalidEncoding => .varintInvalidEncoding

/-- The code a frame command reports for a frame error: the wrapped kind keeps the inner kind (R160, R162). -/
def frameErrorCode : FrameError → Code
  | .bufferTooSmall => .frameBufferTooSmall
  | .lengthExceedsInput => .frameLengthExceedsInput
  | .varint .bufferTooSmall => .frameVarintBufferTooSmall
  | .varint .valueTooLarge => .frameVarintValueTooLarge
  | .varint .invalidEncoding => .frameVarintInvalidEncoding

/-- The STATUS word: CODE in bits 7:0, BUSY in bit 8, bits 63:9 zero (R24). -/
def statusWord (code : Byte) (busy : Bool) : Word :=
  code.setWidth 64 ||| (if busy then 0x100 else 0)

end Sys2Proof.Machine
end

