-- ==== Sys2Proof/Machine/State.lean ====
section
/-! DEFINITION. The state of the block (10_state.md section 1), what the host can do to it, the reasons a step can stop, and
the state after reset (R32, R190). State is plain data. -/

namespace Sys2Proof.Machine

/-- A byte buffer: its written bytes as (index, byte) pairs, indices strictly rising. An index that is not listed has not
been written since reset (10_state.md section 1; D23; Log 5). -/
abbrev Memory := List Host.Cell

/-- The registers of the register map (10_state.md R20). -/
inductive Reg where
  | cmd
  | status
  | valueIn
  | tyIn
  | lenIn
  | inOff
  | inLen
  | outOff
  | outCap
  | resValue
  | resTy
  | resLen
  | resCount
  | resPayloadOff
  | resPayloadLen
  deriving DecidableEq, Repr

/-- One host bus access (30_encoding.md R85): its width in bytes, its address, and for a write its data. The two widths
the block serves are 8 (registers) and 1 (buffers); a byte write carries its byte in the low 8 bits of the data (Log 9). -/
inductive Access where
  | read (bytes addr : Nat)
  | write (bytes addr : Nat) (data : Word)
  deriving DecidableEq, Repr

/-- One entry of the total order of steps (20_memory.md R61). Log 2. -/
inductive Event where
  /-- An access of the host. -/
  | host (a : Access)
  /-- The block's completion step (10_state.md R27). Nothing happens if no command is in flight. -/
  | completion
  /-- The reset input is asserted (70_reset_and_hazards.md R190). -/
  | reset
  /-- An access of a second host agent, which the model refuses (60_exceptions.md R174, 93 I7). -/
  | otherHost (a : Access)
  deriving DecidableEq, Repr

/-- Where the machine stops with a fault. -/
inductive Fault where
  /-- HAZARD_WRITE_WHILE_BUSY: raised by a host write to CMD, an operand register, a window register, IN or OUT while
  BUSY = 1 (70_reset_and_hazards.md R196, 93 I4). Safe: the hardware goes on with an outcome the spec leaves open. -/
  | hazardWriteWhileBusy
  /-- READ_UNWRITTEN_INPUT: raised by VDEC, FHDEC and FDEC when a byte of their read set has not been written since
  reset (70_reset_and_hazards.md R201, 93 I1). Safe: the hardware uses whatever the byte holds. -/
  | readUnwrittenInput
  deriving DecidableEq, Repr

/-- What the model gives no meaning to. -/
inductive Refusal where
  /-- An instruction that has no meaning yet, by its mnemonic. No arm raises it: every command has its meaning. Safe. -/
  | notModelled (mnemonic : String)
  /-- A host access to the register area 0x000 to 0xFFF that is not 64-bit at an 8-aligned offset (10_state.md R21, 93 I3).
  Safe. -/
  | registerAccessShape
  /-- A host access to an IN or OUT byte that is not byte-wide (20_memory.md R53, 93 I3). Safe. -/
  | bufferAccessWidth
  /-- A host access outside BASE to BASE + 0x2FFFF: the platform's, not the block's (20_memory.md R59; Log 6). Safe. -/
  | addressOutsideBlock
  /-- An access of a second host agent (60_exceptions.md R174, 93 I7). Safe. -/
  | secondHostAgent
  /-- A host program whose next line means nothing: a variable that holds no number, an unknown label, a value too wide for its access.
  Raised by the host-program interpreter alone, never by a step of the block (Log 12). Safe. -/
  | hostProgramStuck
  deriving DecidableEq, Repr

/-- The state of the block. The fields from `cmd` to `outBuf` are the spec's own (10_state.md section 1). `params` is the
configuration (00_scope.md R3). `agenda`, `readData` and `draws` are the model's (Log 2, 3, 4). -/
structure State where
  /-- BASE, IN_MAX and OUT_MAX (R3). No step changes it. -/
  params : Params
  /-- CMD: the last command word written (R23). -/
  cmd : Word
  /-- STATUS[7:0], CODE (R24). -/
  statusCode : Byte
  /-- STATUS[8], BUSY (R24). -/
  busy : Bool
  /-- The command word in flight (R27). -/
  pending : Option Word
  /-- VALUE_IN (R25). -/
  valueIn : Word
  /-- TY_IN (R25). -/
  tyIn : Word
  /-- LEN_IN (R25). -/
  lenIn : Word
  /-- IN_OFF (R26). -/
  inOff : Word
  /-- IN_LEN (R26). -/
  inLen : Word
  /-- OUT_OFF (R26). -/
  outOff : Word
  /-- OUT_CAP (R26). -/
  outCap : Word
  /-- RES_VALUE (R28). -/
  resValue : Word
  /-- RES_TY (R28). -/
  resTy : Word
  /-- RES_LEN (R28). -/
  resLen : Word
  /-- RES_COUNT (R28). -/
  resCount : Word
  /-- RES_PAYLOAD_OFF (R28). -/
  resPayloadOff : Word
  /-- RES_PAYLOAD_LEN (R28). -/
  resPayloadLen : Word
  /-- IN (R29). -/
  inBuf : Memory
  /-- OUT (R30). -/
  outBuf : Memory
  /-- The steps still to come, in R61's total order. Log 2. -/
  agenda : List Event
  /-- The value the host's last read returned, a byte zero-extended. Log 3. -/
  readData : Option Word
  /-- How many free values have been drawn. Log 4. -/
  draws : Nat
  deriving DecidableEq, Repr

/-- The state right after reset (10_state.md R32, 70_reset_and_hazards.md R190). -/
def State.reset : State where
  params := Config.params
  cmd := 0
  statusCode := codeByte .none
  busy := false
  pending := none
  valueIn := 0
  tyIn := 0
  lenIn := 0
  inOff := 0
  inLen := 0
  outOff := 0
  outCap := 0
  resValue := 0
  resTy := 0
  resLen := 0
  resCount := 0
  resPayloadOff := 0
  resPayloadLen := 0
  inBuf := []
  outBuf := []
  agenda := []
  readData := none
  draws := 0

end Sys2Proof.Machine
end

