-- ==== Sys2Proof/Machine/Ops.lean ====
section
/-! DEFINITION. The named operations over buffers and registers: reading and writing buffer bytes, starting a command
(10_state.md R23), the two completions (60_exceptions.md R164, R165), reset (70_reset_and_hazards.md R190) and free draws. -/

namespace Sys2Proof.Machine

/-! ### Buffers -/

/-- The canonical form of a buffer: indices strictly rising. No entry says "unwritten", so equal buffers are equal lists. -/
abbrev Memory.wf (m : Memory) : Prop := m.Pairwise (fun p q => p.1 < q.1)

/-- Every listed index lies below `n`, the size of the buffer (R29, R30). -/
abbrev Memory.within (m : Memory) (n : Nat) : Prop := ∀ p ∈ m, p.1 < n

/-- The byte at an index; none if it has not been written since reset (D23). -/
def Memory.read : Memory → Nat → Option Byte
  | [], _ => none
  | (k, b) :: m, a => if k = a then some b else Memory.read m a

/-- Write one byte, keeping the canonical form. -/
def Memory.write : Memory → Nat → Byte → Memory
  | [], a, b => [(a, b)]
  | (k, c) :: m, a, b =>
    if a < k then (a, b) :: (k, c) :: m
    else if a = k then (a, b) :: m
    else (k, c) :: Memory.write m a b

/-- `MemRead(·, a, n)`: the bytes at `a` to `a + n - 1`, first byte first (00_scope.md R6). -/
def memRead (m : Memory) (a : Nat) : Nat → List (Option Byte)
  | 0 => []
  | n + 1 => m.read a :: memRead m (a + 1) n

/-- `MemWrite(·, a, |bs|, bs)`: write `bs` at `a` to `a + |bs| - 1` (00_scope.md R6). -/
def memWrite (m : Memory) (a : Nat) : List Byte → Memory
  | [] => m
  | b :: bs => memWrite (m.write a b) (a + 1) bs

/-- Store bytes in OUT (20_memory.md R56). -/
def storeOut (a : Nat) (bs : List Byte) (s : State) : State :=
  { s with outBuf := memWrite s.outBuf a bs }

/-! ### Registers -/

/-- The value of a register (R20). STATUS is composed of CODE and BUSY (R24). -/
def readReg (r : Reg) (s : State) : Word :=
  match r with
  | .cmd => s.cmd
  | .status => statusWord s.statusCode s.busy
  | .valueIn => s.valueIn
  | .tyIn => s.tyIn
  | .lenIn => s.lenIn
  | .inOff => s.inOff
  | .inLen => s.inLen
  | .outOff => s.outOff
  | .outCap => s.outCap
  | .resValue => s.resValue
  | .resTy => s.resTy
  | .resLen => s.resLen
  | .resCount => s.resCount
  | .resPayloadOff => s.resPayloadOff
  | .resPayloadLen => s.resPayloadLen

/-- The six result registers (R28). -/
def isResult : Reg → Bool
  | .resValue | .resTy | .resLen | .resCount | .resPayloadOff | .resPayloadLen => true
  | .cmd | .status | .valueIn | .tyIn | .lenIn | .inOff | .inLen | .outOff | .outCap => false

/-- The RW registers: CMD, the operand registers and the window registers (R20). -/
def isWritable : Reg → Bool
  | .cmd | .valueIn | .tyIn | .lenIn | .inOff | .inLen | .outOff | .outCap => true
  | .status | .resValue | .resTy | .resLen | .resCount | .resPayloadOff | .resPayloadLen => false

/-! ### Starting and completing a command -/

/-- A CMD write while BUSY = 0: CMD, BUSY and CODE are set and the word is in flight (R23). -/
def startCommand (w : Word) (s : State) : State :=
  { s with cmd := w, busy := true, statusCode := codeByte .pending, pending := some w }

/-- A host write to a RW register while BUSY = 0. A write to CMD starts a command; an operand or window register takes the
value (R23, R25, R26); a RO register keeps its own (R21). -/
def writeReg (r : Reg) (v : Word) (s : State) : State :=
  match r with
  | .cmd => startCommand v s
  | .valueIn => { s with valueIn := v }
  | .tyIn => { s with tyIn := v }
  | .lenIn => { s with lenIn := v }
  | .inOff => { s with inOff := v }
  | .inLen => { s with inLen := v }
  | .outOff => { s with outOff := v }
  | .outCap => { s with outCap := v }
  | .status | .resValue | .resTy | .resLen | .resCount | .resPayloadOff | .resPayloadLen => s

/-- What a completion writes to the six result registers. A register the command does not produce is written 0 (R28). -/
structure Results where
  value : Nat := 0
  ty : Nat := 0
  len : Nat := 0
  count : Nat := 0
  payloadOff : Nat := 0
  payloadLen : Nat := 0
  deriving DecidableEq, Repr

/-- What both completions do: the six result registers, STATUS.CODE, BUSY and `pending` are written and nothing else
changes (R27, R164, R165). -/
def finish (code : Code) (r : Results) (s : State) : State :=
  { s with
    resValue := BitVec.ofNat 64 r.value
    resTy := BitVec.ofNat 64 r.ty
    resLen := BitVec.ofNat 64 r.len
    resCount := BitVec.ofNat 64 r.count
    resPayloadOff := BitVec.ofNat 64 r.payloadOff
    resPayloadLen := BitVec.ofNat 64 r.payloadLen
    statusCode := codeByte code
    busy := false
    pending := none }

/-- Normal completion, `complete(OK, results)` (R164). The command's OUT writes, if any, are already in `s`. -/
def complete (r : Results) (s : State) : State := finish .ok r s

/-- Error completion, `raise CODE` (R165): every result register 0, no OUT byte written. Control goes nowhere, so this is
the block's whole "exception entry", and there is no return from it (R166). -/
def raise (code : Code) (s : State) : State := finish code {} s

/-! ### What a host read returns -/

/-- The host's read returns `v`. -/
def answer (v : Word) (s : State) : State := { s with readData := some v }

/-- The host's read returns any 64-bit value (R197). Log 4. -/
def answerAnyWord (s : State) : State :=
  { s with readData := some (Config.freeWord s.draws), draws := s.draws + 1 }

/-- The host's read returns any byte (R198, R201). Log 4. -/
def answerAnyByte (s : State) : State :=
  { s with readData := some ((Config.freeByte s.draws).setWidth 64), draws := s.draws + 1 }

/-- The host's read of a buffer byte: its value, or any byte if it is unwritten (R201). -/
def answerByte (b : Option Byte) (s : State) : State :=
  match b with
  | some b => answer (b.setWidth 64) s
  | none => answerAnyByte s

/-! ### Reset -/

/-- The reset input is asserted (R190): every piece of the block's state takes its reset value, in one step. The parameters,
and what the model holds of the host (`agenda`, `readData`, `draws`), are not the block's and stay. Log 10. -/
def assertReset (s : State) : State :=
  { State.reset with params := s.params, agenda := s.agenda, readData := s.readData, draws := s.draws }

end Sys2Proof.Machine
end

