-- ==== Sys2Proof/Machine/Bus.lean ====
section
/-! DEFINITION. Host bus accesses: the register map (10_state.md R20), the access rules (R21, 20_memory.md R53), and what
an access does (R58), also while a command is in flight (70_reset_and_hazards.md R196 to R198). -/

namespace Sys2Proof.Machine

/-- The offset of each register (R20). -/
def regOffset : Reg → Nat
  | .cmd => 0x000
  | .status => 0x008
  | .valueIn => 0x010
  | .tyIn => 0x018
  | .lenIn => 0x020
  | .inOff => 0x028
  | .inLen => 0x030
  | .outOff => 0x038
  | .outCap => 0x040
  | .resValue => 0x048
  | .resTy => 0x050
  | .resLen => 0x058
  | .resCount => 0x060
  | .resPayloadOff => 0x068
  | .resPayloadLen => 0x070

/-- The registers, in the order of their offsets. -/
def allRegs : List Reg :=
  [.cmd, .status, .valueIn, .tyIn, .lenIn, .inOff, .inLen, .outOff, .outCap,
   .resValue, .resTy, .resLen, .resCount, .resPayloadOff, .resPayloadLen]

/-- The register at an offset, if one lies there (R20). -/
def regAt (off : Nat) : Option Reg := allRegs.find? (fun r => regOffset r == off)

/-- What an access reaches. -/
inductive Target where
  | reg (r : Reg)
  | inByte (i : Nat)
  | outByte (j : Nat)
  | reserved
  deriving DecidableEq, Repr

/-- An access to offsets `first` to `last` touches the area of `size` bytes at `start`. -/
def touches (first last start size : Nat) : Bool := decide (start ≤ last) && decide (first < start + size)

/-- What an access of `bytes` bytes at offset `off` reaches, or why it is refused (R20, R21, R53; Log 7). -/
def locateOffset (p : Params) (bytes off : Nat) : Except Refusal Target :=
  if off < 0x1000 then
    if bytes = 8 ∧ off % 8 = 0 then
      match regAt off with
      | some r => .ok (.reg r)
      | none => .ok .reserved
    else .error .registerAccessShape
  else if touches off (off + (bytes - 1)) 0x10000 p.inMax then
    if bytes = 1 then .ok (.inByte (off - 0x10000)) else .error .bufferAccessWidth
  else if touches off (off + (bytes - 1)) 0x20000 p.outMax then
    if bytes = 1 then .ok (.outByte (off - 0x20000)) else .error .bufferAccessWidth
  else .ok .reserved

/-- What an access of `bytes` bytes at address `addr` reaches, or why it is refused. The block occupies BASE to
BASE + 0x2FFFF (R20); the addresses around it are the platform's (R59; Log 6). -/
def locate (p : Params) (bytes addr : Nat) : Except Refusal Target :=
  if p.base ≤ addr ∧ addr + (bytes - 1) < p.base + 0x30000 then locateOffset p bytes (addr - p.base)
  else .error .addressOutsideBlock

/-- A host read. It changes nothing of the block (R58). While BUSY = 1 a result register and an OUT byte read as any
value (R197, R198); an unwritten byte always does (R201). -/
def hostRead (t : Target) (s : State) : State :=
  match t with
  | .reserved => answer 0 s
  | .reg r => if s.busy && isResult r then answerAnyWord s else answer (readReg r s) s
  | .inByte i => answerByte (s.inBuf.read i) s
  | .outByte j => if s.busy then answerAnyByte s else answerByte (s.outBuf.read j) s

/-- A host write. A write to a RO or reserved offset is ignored (R21). A write to CMD, an operand, a window, IN or OUT is a
hazard while BUSY = 1 (R196) and otherwise only stores the value, but that a CMD write starts a command (R23, R58). -/
def hostWrite (t : Target) (v : Word) (s : State) : Host.Outcome State Fault Refusal :=
  match t with
  | .reserved => .next s
  | .reg r =>
    if isWritable r then
      if s.busy then .fault .hazardWriteWhileBusy else .next (writeReg r v s)
    else .next s
  | .inByte i =>
    if s.busy then .fault .hazardWriteWhileBusy else .next { s with inBuf := s.inBuf.write i (v.setWidth 8) }
  | .outByte j =>
    if s.busy then .fault .hazardWriteWhileBusy else .next { s with outBuf := s.outBuf.write j (v.setWidth 8) }

/-- One host access (R21, R53, R58). DESIGN CHOICE: a write of a refused shape or width while BUSY = 1 meets both the refusal (R21,
R53) and the hazard (R196); the spec gives no order, and the model refuses it, since what an access reaches is settled before
BUSY is looked at (Log 17). -/
def hostAccess (a : Access) (s : State) : Host.Outcome State Fault Refusal :=
  match a with
  | .read bytes addr =>
    match locate s.params bytes addr with
    | .error r => .refused r
    | .ok t => .next (hostRead t s)
  | .write bytes addr v =>
    match locate s.params bytes addr with
    | .error r => .refused r
    | .ok t => hostWrite t v s

end Sys2Proof.Machine
end

