-- ==== Sys2Proof/Machine/Codec.lean ====
section
/-! DEFINITION. The two wire codecs as pure functions (30_encoding.md R73 to R80, 40_varint.md R100 to R102, 41_frame.md
R130, R131, R141). Arithmetic is on unbounded naturals (00_scope.md R6). The commands run these functions. -/

namespace Sys2Proof.Machine

/-- MAX62 = 2^62 - 1, the largest varint value. -/
def max62 : Nat := 2 ^ 62 - 1

/-- The minimal tier of a value (30_encoding.md R77). R77 leaves it undefined from 2^62 on; `varintLen` never asks there. -/
def tier (v : Nat) : Nat :=
  if v ≤ 63 then 1
  else if v ≤ 16383 then 2
  else if v ≤ 1073741823 then 4
  else 8

/-- The length a tag stands for (30_encoding.md R74). The last arm is the source's unreachable InvalidEncoding branch, kept
as 40_varint.md R109 asks: a tag is a 2-bit field. -/
def lenOfTag (t : Nat) : Option Nat :=
  match t with
  | 0 => some 1
  | 1 => some 2
  | 2 => some 4
  | 3 => some 8
  | _ => none

/-- The tag of a length: `log2(L)` (30_encoding.md R74). -/
def tagOfLen (L : Nat) : Nat := Nat.log2 L

/-- Bits 7:6 of a varint's first byte: its tag (R73). -/
def tagField (b : Byte) : BitVec 2 := b.extractLsb' 6 2

/-- Bits 5:0 of a varint's first byte: the top value bits (R73). -/
def topValueField (b : Byte) : BitVec 6 := b.extractLsb' 0 6

/-- `bytes_of(w, L)`: the L-byte big-endian sequence of `w` (00_scope.md R6). -/
def bytesOf (w : Nat) : Nat → List Byte
  | 0 => []
  | L + 1 => BitVec.ofNat 8 (w / 256 ^ L) :: bytesOf w L

/-- `value_of(s)`: the number a big-endian byte sequence stands for (00_scope.md R6). -/
def valueOf (s : List Byte) : Nat := s.foldl (fun v b => v * 256 + b.toNat) 0

/-- The wire bytes of `v` at length `L` (30_encoding.md R76). -/
def varintBytesAt (v L : Nat) : List Byte := bytesOf (tagOfLen L * 2 ^ (8 * L - 2) + v) L

/-- The canonical wire bytes of `v`: R131's `varint_bytes`. -/
def varintBytes (v : Nat) : List Byte := varintBytesAt v (tier v)

/-- `varint_len`, the source's `encoded_len` (R100). -/
def varintLen (v : Nat) : Except VarIntError Nat :=
  if max62 < v then .error .valueTooLarge else .ok (tier v)

/-- `varint_encode`, the source's `encode`, with `cap` for `out.length` (R101). -/
def varintEncode (v cap : Nat) : Except VarIntError (List Byte) :=
  match varintLen v with
  | .error e => .error e
  | .ok L => if cap < L then .error .bufferTooSmall else .ok (varintBytesAt v L)

/-- Value assembly (30_encoding.md R75): big-endian, zero-extended. -/
def assembleValue (top : Nat) (rest : List Byte) : Nat :=
  rest.foldl (fun v b => v * 256 + b.toNat) top

/-- `varint_decode`, the source's `decode` (R102): the value and the bytes consumed. -/
def varintDecode (s : List Byte) : Except VarIntError (Nat × Nat) :=
  match s with
  | [] => .error .bufferTooSmall
  | b :: rest =>
    match lenOfTag (tagField b).toNat with
    | none => .error .invalidEncoding
    | some L =>
      if (b :: rest).length < L then .error .bufferTooSmall
      else .ok (assembleValue (topValueField b).toNat (rest.take (L - 1)), L)

/-- FrameHeader (41_frame.md, the types). -/
structure FrameHeader where
  ty : Nat
  len : Nat
  deriving DecidableEq, Repr

/-- `mapErr VarInt`: a varint error wrapped in a frame error (41_frame.md, 90_conflicts.md C1). -/
def wrapVarint {α : Type} (r : Except VarIntError α) : Except FrameError α :=
  match r with
  | .error e => .error (.varint e)
  | .ok x => .ok x

/-- `frame_header_decode` (R130): the header and the bytes consumed. -/
def frameHeaderDecode (s : List Byte) : Except FrameError (FrameHeader × Nat) :=
  match wrapVarint (varintDecode s) with
  | .error e => .error e
  | .ok (ty, a) =>
    match wrapVarint (varintDecode (s.drop a)) with
    | .error e => .error e
    | .ok (len, b) => .ok ({ ty := ty, len := len }, a + b)

/-- `frame_header_encode` (R131): both ranges first, then the combined capacity. -/
def frameHeaderEncode (ty len cap : Nat) : Except FrameError (List Byte) :=
  match wrapVarint (varintLen ty) with
  | .error e => .error e
  | .ok a =>
    match wrapVarint (varintLen len) with
    | .error e => .error e
    | .ok b => if cap < a + b then .error .bufferTooSmall else .ok (varintBytes ty ++ varintBytes len)

/-- The check that follows the header in a frame decode (R137, R138): the payload must lie in the bytes that follow the
header. On success the header, its length and the bytes consumed. -/
def frameLocate (h : FrameHeader) (n sliceLen : Nat) : Except FrameError (FrameHeader × Nat × Nat) :=
  if sliceLen - n < h.len then .error .lengthExceedsInput else .ok (h, n, n + h.len)

/-- `frame_decode`, the pure form of R137 on a slice (R141): the header, the payload, its offset in the slice and the bytes
consumed. -/
def frameDecode (s : List Byte) : Except FrameError (FrameHeader × List Byte × Nat × Nat) :=
  match frameHeaderDecode s with
  | .error e => .error e
  | .ok (h, n) =>
    match frameLocate h n s.length with
    | .error e => .error e
    | .ok (h, n, consumed) => .ok (h, (s.drop n).take h.len, n, consumed)

end Sys2Proof.Machine
end

