-- ==== Sys2Proof/Machine/Operands.lean ====
section
/-! DEFINITION. How a command takes its operands: the operand registers as numbers (10_state.md R25), the two windows
(20_memory.md R54), the input slice, and the bytes of it that a decode reads (R55). -/

namespace Sys2Proof.Machine

/-- `in_window_ok` (R54), on unbounded naturals. -/
def inWindowOk (s : State) : Bool :=
  decide (s.inOff.toNat ≤ s.params.inMax) && decide (s.inLen.toNat ≤ s.params.inMax - s.inOff.toNat)

/-- `out_window_ok` (R54), on unbounded naturals. -/
def outWindowOk (s : State) : Bool :=
  decide (s.outOff.toNat ≤ s.params.outMax) && decide (s.outCap.toNat ≤ s.params.outMax - s.outOff.toNat)

/-- The input slice `S_in = MemRead(IN, IN_OFF, IN_LEN)`, an unwritten byte as none (R54, D23). -/
def inSlice (s : State) : List (Option Byte) := memRead s.inBuf s.inOff.toNat s.inLen.toNat

/-- The bytes of `l`, if every one is written. -/
def allWritten : List (Option Byte) → Option (List Byte)
  | [] => some []
  | none :: _ => none
  | some b :: l =>
    match allWritten l with
    | none => none
    | some bs => some (b :: bs)

/-- How many bytes a varint decode reads of a slice (R55): none of an empty slice; the first byte; and the bytes up to the
tag's length if the slice holds that many. -/
def varintReadCount (sl : List (Option Byte)) : Nat :=
  match sl with
  | [] => 0
  | none :: _ => 1
  | some b :: rest =>
    match lenOfTag (tagField b).toNat with
    | none => 1
    | some L => if L ≤ (some b :: rest).length then L else 1

/-- The bytes a varint decode reads of a slice, in order; none if one of them is unwritten (R55, R201). -/
def varintBytesRead (sl : List (Option Byte)) : Option (List Byte) :=
  allWritten (sl.take (varintReadCount sl))

/-- The bytes a frame-header decode reads of a slice, in order; none if one of them is unwritten. The second varint is
read only if the first one decodes, from the byte after it (R55, R130, R201). -/
def headerBytesRead (sl : List (Option Byte)) : Option (List Byte) :=
  match varintBytesRead sl with
  | none => none
  | some bs =>
    match varintDecode bs with
    | .error _ => some bs
    | .ok (_, a) =>
      match varintBytesRead (sl.drop a) with
      | none => none
      | some bs' => some (bs ++ bs')

end Sys2Proof.Machine
end

