-- ==== Sys2Proof/Machine/Frame.lean ====
section
/-! DEFINITION. The frame commands FHDEC, FHENC and FDEC (41_frame.md R132, R134, R137), as the completion step runs them. -/

namespace Sys2Proof.Machine

/-- FHDEC (R132): decode a frame header from the start of the input slice. -/
def execFhdec (s : State) : Host.Outcome State Fault Refusal :=
  if inWindowOk s then
    match headerBytesRead (inSlice s) with
    | none => .fault .readUnwrittenInput
    | some bs =>
      match frameHeaderDecode bs with
      | .error e => .next (raise (frameErrorCode e) s)
      | .ok (h, n) => .next (complete { ty := h.ty, len := h.len, count := n } s)
  else .next (raise .windowError s)

/-- FHENC (R134): encode a frame header into the output slice. -/
def execFhenc (s : State) : Host.Outcome State Fault Refusal :=
  if outWindowOk s then
    match frameHeaderEncode s.tyIn.toNat s.lenIn.toNat s.outCap.toNat with
    | .error e => .next (raise (frameErrorCode e) s)
    | .ok bs => .next (complete { count := bs.length } (storeOut s.outOff.toNat bs s))
  else .next (raise .windowError s)

/-- FDEC (R137): decode a frame header and locate the payload. No payload byte is read (R140). -/
def execFdec (s : State) : Host.Outcome State Fault Refusal :=
  if inWindowOk s then
    match headerBytesRead (inSlice s) with
    | none => .fault .readUnwrittenInput
    | some bs =>
      match frameHeaderDecode bs with
      | .error e => .next (raise (frameErrorCode e) s)
      | .ok (h, n) =>
        match frameLocate h n s.inLen.toNat with
        | .error e => .next (raise (frameErrorCode e) s)
        | .ok (h, n, consumed) =>
          .next (complete
            { ty := h.ty, len := h.len, count := consumed, payloadOff := s.inOff.toNat + n, payloadLen := h.len } s)
  else .next (raise .windowError s)

end Sys2Proof.Machine
end

