-- ==== Sys2Proof/Machine/Varint.lean ====
section
/-! DEFINITION. The varint commands VLEN, VENC and VDEC (40_varint.md R103, R105, R107), as the completion step runs them. -/

namespace Sys2Proof.Machine

/-- VLEN (R103): the encoded length of VALUE_IN. -/
def execVlen (s : State) : Host.Outcome State Fault Refusal :=
  match varintLen s.valueIn.toNat with
  | .error e => .next (raise (varintErrorCode e) s)
  | .ok L => .next (complete { count := L } s)

/-- VENC (R105): encode VALUE_IN into the output slice. -/
def execVenc (s : State) : Host.Outcome State Fault Refusal :=
  if outWindowOk s then
    match varintEncode s.valueIn.toNat s.outCap.toNat with
    | .error e => .next (raise (varintErrorCode e) s)
    | .ok bs => .next (complete { count := bs.length } (storeOut s.outOff.toNat bs s))
  else .next (raise .windowError s)

/-- VDEC (R107): decode one varint from the start of the input slice. -/
def execVdec (s : State) : Host.Outcome State Fault Refusal :=
  if inWindowOk s then
    match varintBytesRead (inSlice s) with
    | none => .fault .readUnwrittenInput
    | some bs =>
      match varintDecode bs with
      | .error e => .next (raise (varintErrorCode e) s)
      | .ok (v, L) => .next (complete { value := v, count := L } s)
  else .next (raise .windowError s)

end Sys2Proof.Machine
end

