-- ==== Sys2Proof/Machine/Dispatch.lean ====
section
/-! DEFINITION. One arm per command: the meaning of each. -/

namespace Sys2Proof.Machine

def exec (i : Instr) (s : State) : Host.Outcome State Fault Refusal :=
  match i with
  | .vlen => Sys2Proof.Machine.execVlen s
  | .venc => Sys2Proof.Machine.execVenc s
  | .vdec => Sys2Proof.Machine.execVdec s
  | .fhdec => Sys2Proof.Machine.execFhdec s
  | .fhenc => Sys2Proof.Machine.execFhenc s
  | .fdec => Sys2Proof.Machine.execFdec s

end Sys2Proof.Machine
end

