-- ==== Sys2Proof/Machine/Events.lean ====
section
/-! DEFINITION. The steps of the block and of the outside: the completion step (10_state.md R27), the host's accesses and
the reset input, one at a time in one total order (20_memory.md R61). -/

namespace Sys2Proof.Machine

/-- The completion step (R27), enabled whenever `pending = some w`: the command is evaluated, or an illegal word makes an
error completion (60_exceptions.md R161). With no command in flight nothing happens. Log 2. -/
def completionStep (s : State) : Host.Outcome State Fault Refusal :=
  match s.pending with
  | none => .next s
  | some w =>
    match decode w with
    | .ok i => exec i s
    | .error _ => .next (raise .illegalCommand s)

/-- One entry of the total order. -/
def takeEvent (e : Event) (s : State) : Host.Outcome State Fault Refusal :=
  match e with
  | .host a => hostAccess a s
  | .completion => completionStep s
  | .reset => .next (assertReset s)
  | .otherHost _ => .refused .secondHostAgent

/-- The next step of the machine: the next entry of the agenda; once the outside has nothing more to do, a command still in
flight completes, which is R203's fairness. Log 2. -/
def nextEvent (s : State) : Host.Outcome State Fault Refusal :=
  match s.agenda with
  | [] => completionStep s
  | e :: rest => takeEvent e { s with agenda := rest }

/-- The state in which `w` has just been written to CMD and the block's completion is the next step. Log 8. -/
def deliverCommand (w : Word) (s : State) : State :=
  { startCommand w s with agenda := .completion :: s.agenda }

end Sys2Proof.Machine
end

