-- ==== Sys2Proof/Machine/Step.lean ====
section
/-! DEFINITION. One step of the machine (20_memory.md R61), and the state whose next step runs a given command word. -/

namespace Sys2Proof.Machine

/-- One step: the next entry of the total order. -/
def step (s : State) : Host.Outcome State Fault Refusal := nextEvent s

/-- The block fetches nothing (20_memory.md R64): a command comes to it by a CMD write. This is `s` with the table word
written to CMD and its completion the very next step. Log 8. -/
def State.withFetchWord (s : State) (nbits w : Nat) : State :=
  deliverCommand (BitVec.ofNat 64 (tableWord nbits w)) s

end Sys2Proof.Machine
end

