-- ==== Sys2Proof/Machine/HostProgram.lean ====
section
/-! DEFINITION. The host program notation (30_encoding.md R85), the bus access of each primitive line, the expansions of the
pseudo-operations (R86), and how a host runs its lines against the block, with the block's completions among them. The host's variables and its place in its program
are the host processor's own, not the block's, so they stand outside State (Log 12). -/

namespace Sys2Proof.Machine

/-- A host-side expression on unbounded naturals; `slice e hi lo` is `e[hi:lo]` (R85, 00_scope.md R4). DESIGN CHOICE: R85 lists no
operators for `<expr>`; the model has +, - and the slice, those the programs of 95_test_vectors.md use (Log 12). -/
inductive HostExpr where
  | lit (n : Nat)
  | var (h : String)
  | add (a b : HostExpr)
  | sub (a b : HostExpr)
  | slice (e : HostExpr) (hi lo : Nat)
  deriving DecidableEq, Repr

/-- A host-side condition. DESIGN CHOICE: R85 lists no operators for `<cond>`; the model has = and !=, those the programs of
95_test_vectors.md use (Log 12). -/
inductive HostCond where
  | eq (a b : HostExpr)
  | ne (a b : HostExpr)
  deriving DecidableEq, Repr

/-- One line of a host program: the primitive lines of R85's table, the one pseudo-operation whose expansion depends on a value
the host holds when it comes to it (`RBS`, R86), and the host's own step that ends that expansion. -/
inductive HostLine where
  /-- `W REG, v` -/
  | write (r : Reg) (v : HostExpr)
  /-- `R h, REG` -/
  | read (h : String) (r : Reg)
  /-- `WB IN[i], b` -/
  | writeIn (i b : HostExpr)
  /-- `WB OUT[j], b` -/
  | writeOut (j b : HostExpr)
  /-- `RB h, IN[i]` -/
  | readIn (h : String) (i : HostExpr)
  /-- `RB h, OUT[j]` -/
  | readOut (h : String) (j : HostExpr)
  /-- `h := expr` -/
  | assign (h : String) (e : HostExpr)
  /-- `if cond goto label` -/
  | ifGoto (c : HostCond) (label : String)
  /-- `label:` -/
  | label (l : String)
  /-- `h := [p0, p1, …]`: `h` becomes the sequence of the values of the variables `parts` (R86, the end of `RBS`). -/
  | collect (h : String) (parts : List String)
  /-- `RBS h, OUT[j], n` (R86). -/
  | rbsOut (h : String) (j n : HostExpr)
  deriving DecidableEq, Repr

/-- What a host variable holds: an unbounded natural (R85), or the sequence of numbers that `RBS` makes (R86). -/
inductive HostValue where
  | num (n : Nat)
  | seq (l : List Nat)
  deriving DecidableEq, Repr

/-- The host's variables. -/
abbrev HostVars := List (String × HostValue)

/-- What a host variable holds, if it has been set. -/
def hostVar (vars : HostVars) (h : String) : Option HostValue := vars.lookup h

/-- The number a host variable holds; none if it is unset or holds a sequence. -/
def hostNum (vars : HostVars) (h : String) : Option Nat :=
  match hostVar vars h with
  | some (.num n) => some n
  | some (.seq _) => none
  | none => none

/-- The numbers a list of host variables holds, in order; none if one of them holds none. -/
def hostNums (vars : HostVars) : List String → Option (List Nat)
  | [] => some []
  | h :: hs => (hostNum vars h).bind fun n => (hostNums vars hs).map fun ns => n :: ns

/-- Set a host variable. -/
def setHostVar (vars : HostVars) (h : String) (v : HostValue) : HostVars := (h, v) :: vars.filter (fun p => p.1 != h)

/-- The value of a host expression; none if a variable in it holds no number. DESIGN CHOICE: R4 says nothing of a slice `e[hi:lo]`
with hi < lo, and the model gives it the value 0; a subtraction below 0 gives 0 (Log 12). -/
def evalHost (vars : HostVars) : HostExpr → Option Nat
  | .lit n => some n
  | .var h => hostNum vars h
  | .add a b => (evalHost vars a).bind fun x => (evalHost vars b).map fun y => x + y
  | .sub a b => (evalHost vars a).bind fun x => (evalHost vars b).map fun y => x - y
  | .slice e hi lo => (evalHost vars e).map fun x => x / 2 ^ lo % 2 ^ (hi + 1 - lo)

/-- Whether a host condition holds; none if a variable in it holds no number. -/
def condHost (vars : HostVars) : HostCond → Option Bool
  | .eq a b => (evalHost vars a).bind fun x => (evalHost vars b).map fun y => x == y
  | .ne a b => (evalHost vars a).bind fun x => (evalHost vars b).map fun y => x != y

/-- A byte access to the buffer at `start`: `WB` with data, `RB` without (R85). -/
def bufferAccess (p : Params) (start i : Nat) (data : Option Nat) : Option Access :=
  match data with
  | none => some (.read 1 (p.base + start + i))
  | some b => if b < 256 then some (.write 1 (p.base + start + i) (BitVec.ofNat 64 b)) else none

/-- The bus access a line is (R85); none for the host's own work, and for a line whose operands mean nothing. -/
def lineAccess (p : Params) (vars : HostVars) : HostLine → Option Access
  | .write r v => (evalHost vars v).bind fun x =>
      if x < 2 ^ 64 then some (.write 8 (p.base + regOffset r) (BitVec.ofNat 64 x)) else none
  | .read _ r => some (.read 8 (p.base + regOffset r))
  | .writeIn i b => (evalHost vars i).bind fun x => (evalHost vars b).bind fun y => bufferAccess p 0x10000 x (some y)
  | .writeOut j b => (evalHost vars j).bind fun x => (evalHost vars b).bind fun y => bufferAccess p 0x20000 x (some y)
  | .readIn _ i => (evalHost vars i).bind fun x => bufferAccess p 0x10000 x none
  | .readOut _ j => (evalHost vars j).bind fun x => bufferAccess p 0x20000 x none
  | .assign _ _ => none
  | .ifGoto _ _ => none
  | .label _ => none
  | .collect _ _ => none
  | .rbsOut _ _ _ => none

/-- `WAIT` with the fresh label `l` and the host variable `t` (R86). -/
def waitLines (l t : String) : List HostLine :=
  [.label l, .read t .status, .ifGoto (.eq (.slice (.var t) 8 8) (.lit 1)) l]

/-- `EXECW w` (R86). -/
def execwLines (w : HostExpr) (l t : String) : List HostLine := .write .cmd w :: waitLines l t

/-- `EXEC MNEMONIC` (R86). -/
def execLines (i : Instr) (l t : String) : List HostLine := execwLines (.lit (encode i).toNat) l t

/-- `WBS IN[i], [b0, …]`: the lines `WB IN[i + k], bk` (R86). -/
def wbsInLines (i : HostExpr) (bs : List HostExpr) : List HostLine := bs.mapIdx fun k b => .writeIn (.add i (.lit k)) b

/-- `WBS OUT[j], [b0, …]`: the lines `WB OUT[j + k], bk` (R86). -/
def wbsOutLines (j : HostExpr) (bs : List HostExpr) : List HostLine := bs.mapIdx fun k b => .writeOut (.add j (.lit k)) b

/-- The host variable that holds the k-th byte of `RBS h`: the `hk` of R86. -/
def partName (h : String) (k : Nat) : String := h ++ toString k

/-- The expansion of `RBS h, OUT[j], n` for the value `n` has (R86): the lines `RB hk, OUT[j + k]` for k from 0 to n - 1, then
`h` is the sequence of the `hk`. -/
def rbsOutLines (h : String) (j : HostExpr) (n : Nat) : List HostLine :=
  (List.range n).map (fun k => .readOut (partName h k) (.add j (.lit k))) ++ [.collect h ((List.range n).map (partName h))]

/-- The named wire constants (30_encoding.md R84). The block does not use them; a host writes their values to VALUE_IN, TY_IN or
a buffer. -/
inductive WireConstant where
  | streamTypeControl
  | streamTypePush
  | streamTypeQpackEncoder
  | streamTypeQpackDecoder
  | frameTypeData
  | frameTypeHeaders
  | frameTypeSettings
  | frameTypeGoaway
  | h3NoError
  | h3GeneralProtocolError
  | h3FrameUnexpected
  | h3FrameError
  deriving DecidableEq, Repr

/-- The value of a named wire constant, as R84 states it (H3_FRAME_UNEXPECTED is 0x103 there, 91_not_in_source.md N10). -/
def wireValue : WireConstant → Nat
  | .streamTypeControl => 0x00
  | .streamTypePush => 0x01
  | .streamTypeQpackEncoder => 0x02
  | .streamTypeQpackDecoder => 0x03
  | .frameTypeData => 0x00
  | .frameTypeHeaders => 0x01
  | .frameTypeSettings => 0x04
  | .frameTypeGoaway => 0x07
  | .h3NoError => 0x100
  | .h3GeneralProtocolError => 0x101
  | .h3FrameUnexpected => 0x103
  | .h3FrameError => 0x106

/-- A host and its program: the lines, the line it is at, its variables, and what is left of the expansion of an `RBS` it has
come to. -/
structure HostState where
  program : List HostLine
  line : Nat
  vars : HostVars
  expansion : List HostLine := []
  deriving DecidableEq, Repr

/-- The line the host runs next: of an expansion under way, else of the program. -/
def HostState.current (h : HostState) : Option HostLine :=
  match h.expansion with
  | [] => h.program[h.line]?
  | ln :: _ => some ln

/-- The host has run its line and goes on to the next one. -/
def HostState.advance (h : HostState) : HostState :=
  match h.expansion with
  | [] => { h with line := h.line + 1 }
  | _ :: rest => { h with expansion := rest }

/-- The host sets a variable. -/
def HostState.set (h : HostState) (x : String) (v : HostValue) : HostState := { h with vars := setHostVar h.vars x v }

/-- The host variable a read line sets. -/
def readTarget : HostLine → Option String
  | .read h _ => some h
  | .readIn h _ => some h
  | .readOut h _ => some h
  | .write _ _ => none
  | .writeIn _ _ => none
  | .writeOut _ _ => none
  | .assign _ _ => none
  | .ifGoto _ _ => none
  | .label _ => none
  | .collect _ _ => none
  | .rbsOut _ _ _ => none

/-- The host after a bus access of the line it is at: a read line takes the value the read returned. -/
def afterAccess (h : HostState) (ln : HostLine) (s : State) : HostState :=
  match readTarget ln, s.readData with
  | some x, some v => (h.set x (.num v.toNat)).advance
  | _, _ => h.advance

/-- A line that is one bus access. -/
def runAccessLine (h : HostState) (ln : HostLine) (s : State) : Host.Outcome (HostState × State) Fault Refusal :=
  match lineAccess s.params h.vars ln with
  | none => .refused .hostProgramStuck
  | some a =>
    match hostAccess a s with
    | .next s' => .next (afterAccess h ln s', s')
    | .fault r => .fault r
    | .refused r => .refused r

/-- The host runs the line it is at (R85, R86): a line of its own work changes only the host; any other line is one bus access. A
program past its last line has ended. -/
def runHostLine (h : HostState) (s : State) : Host.Outcome (HostState × State) Fault Refusal :=
  match h.current with
  | none => .next (h, s)
  | some ln =>
    match ln with
    | .label _ => .next (h.advance, s)
    | .assign x e =>
      match evalHost h.vars e with
      | none => .refused .hostProgramStuck
      | some v => .next ((h.set x (.num v)).advance, s)
    | .collect x parts =>
      match hostNums h.vars parts with
      | none => .refused .hostProgramStuck
      | some l => .next ((h.set x (.seq l)).advance, s)
    | .rbsOut x j n =>
      match evalHost h.vars n with
      | none => .refused .hostProgramStuck
      | some k => .next ({ h.advance with expansion := rbsOutLines x j k }, s)
    | .ifGoto c l =>
      match condHost h.vars c with
      | none => .refused .hostProgramStuck
      | some false => .next (h.advance, s)
      | some true =>
        match h.program.findIdx? (fun x => x == .label l) with
        | none => .refused .hostProgramStuck
        | some k => .next ({ h with line := k, expansion := [] }, s)
    | .write r v => runAccessLine h (.write r v) s
    | .read x r => runAccessLine h (.read x r) s
    | .writeIn i b => runAccessLine h (.writeIn i b) s
    | .writeOut j b => runAccessLine h (.writeOut j b) s
    | .readIn x i => runAccessLine h (.readIn x i) s
    | .readOut x j => runAccessLine h (.readOut x j) s

/-- Whose turn it is while a host program runs: the host's, for one line, the block's, for its completion step, or the reset
input's. -/
inductive HostTurn where
  | line
  | completion
  | reset
  deriving DecidableEq, Repr

/-- One turn. A completion with nothing in flight changes nothing, as in `step` (Log 2). -/
def runHostTurn (turn : HostTurn) (h : HostState) (s : State) : Host.Outcome (HostState × State) Fault Refusal :=
  match turn with
  | .line => runHostLine h s
  | .completion =>
    match completionStep s with
    | .next s' => .next (h, s')
    | .fault r => .fault r
    | .refused r => .refused r
  | .reset => .next (h, assertReset s)

/-- A host program run by a list of turns, stopping at the first fault or refusal. Where the completions fall among the program's
lines is open (70_reset_and_hazards.md R203); the list says it, and any list may be given. DESIGN CHOICE: the run ends with the
list, and no completion falls where the list names none (Log 12). -/
def runHostTurns : List HostTurn → HostState → State → Host.Outcome (HostState × State) Fault Refusal
  | [], h, s => .next (h, s)
  | turn :: turns, h, s =>
    match runHostTurn turn h s with
    | .next (h', s') => runHostTurns turns h' s'
    | .fault r => .fault r
    | .refused r => .refused r

/-- `k` lines of the host's program with no completion among them. DESIGN CHOICE: of the orders R203 leaves open this is the one in
which LATENCY is longer than the run, so a `WAIT` entered with BUSY = 1 does not end within it; `runHostTurns` has the others
(Log 12). -/
def runHostLines (k : Nat) (h : HostState) (s : State) : Host.Outcome (HostState × State) Fault Refusal :=
  runHostTurns (List.replicate k .line) h s

end Sys2Proof.Machine
end

