-- ==== Sys2Proof/WellFormed.lean ====
section
/-! DEFINITION. The checks on what is given to the model: the parameters (00_scope.md R3). A command of `Instr` carries no
operand (30_encoding.md R70), so every term of `Instr` is well-formed; which command words are legal is the decoder's matter. -/

namespace Sys2Proof

/-- R3's conditions on BASE, IN_MAX and OUT_MAX. -/
def Params.wf (p : Params) : Bool :=
  decide (p.base % 2 ^ 18 = 0)
    && decide (16 ≤ p.inMax) && decide (p.inMax ≤ 65536)
    && decide (16 ≤ p.outMax) && decide (p.outMax ≤ 65536)

end Sys2Proof
end

