-- ==== Sys2Proof/Safety.lean ====
section
/-! DEFINITION. The terms claims about runs use: the invariant of the block, a run that does not stop, the end of a command
(70_reset_and_hazards.md R205) and the payload view (20_memory.md R66). -/

namespace Sys2Proof.Machine

/-- The values CODE holds when no command is in flight (R160; 0x03 and 0x23 never occur, R109). -/
def idleCodes : List Byte := [0x00, 0x01, 0x02, 0x11, 0x12, 0x21, 0x22, 0xF1, 0xF2, 0xFF]

/-- Every result register is 0. -/
abbrev State.resultsZero (s : State) : Prop :=
  s.resValue = 0 ∧ s.resTy = 0 ∧ s.resLen = 0 ∧ s.resCount = 0 ∧ s.resPayloadOff = 0 ∧ s.resPayloadLen = 0

/-- What holds of the block in every state a run reaches. -/
structure State.Inv (s : State) : Prop where
  /-- R3. -/
  params : s.params.wf = true
  /-- R27: `pending` is `some w` exactly when BUSY = 1. -/
  busy : s.busy = s.pending.isSome
  /-- R23, R24: a word in flight is the one CMD holds, and CODE is 0xFE. -/
  inFlight : ∀ w, s.pending = some w → s.cmd = w ∧ s.statusCode = codeByte .pending
  /-- R24, R109, R160: CODE holds only listed values. -/
  idleCode : s.pending = none → s.statusCode ∈ idleCodes
  /-- R165, R32: with no command in flight and CODE other than OK, the results are 0. -/
  errorZero : s.pending = none → s.statusCode ≠ codeByte .ok → s.resultsZero
  /-- The canonical form of IN, and its size (R29). -/
  inForm : s.inBuf.wf ∧ s.inBuf.within s.params.inMax
  /-- The canonical form of OUT, and its size (R30). -/
  outForm : s.outBuf.wf ∧ s.outBuf.within s.params.outMax
  /-- R114, R143: the decoded values lie in the varint domain. -/
  values : s.resValue.toNat ≤ max62 ∧ s.resTy.toNat ≤ max62 ∧ s.resLen.toNat ≤ max62
  /-- R114, R143. -/
  count : s.resCount.toNat ≤ 65536
  /-- R139, R143: the payload view lies in IN. -/
  view : s.resPayloadOff.toNat + s.resPayloadLen.toNat ≤ s.params.inMax

/-- The input window is legal (R54). -/
abbrev State.InWindow (s : State) : Prop :=
  s.inOff.toNat ≤ s.params.inMax ∧ s.inLen.toNat ≤ s.params.inMax - s.inOff.toNat

/-- The output window is legal (R54). -/
abbrev State.OutWindow (s : State) : Prop :=
  s.outOff.toNat ≤ s.params.outMax ∧ s.outCap.toNat ≤ s.params.outMax - s.outOff.toNat

/-- The state a completion leaves, written out field by field: CODE, OUT and the six result registers as given, BUSY = 0,
nothing in flight, everything else as it was (R164, R165). -/
def State.completed (s : State) (code : Byte) (out : Memory) (value ty len count payloadOff payloadLen : Nat) : State :=
  { s with
    outBuf := out
    statusCode := code
    busy := false
    pending := none
    resValue := BitVec.ofNat 64 value
    resTy := BitVec.ofNat 64 ty
    resLen := BitVec.ofNat 64 len
    resCount := BitVec.ofNat 64 count
    resPayloadOff := BitVec.ofNat 64 payloadOff
    resPayloadLen := BitVec.ofNat 64 payloadLen }

/-- The state an error completion leaves: CODE as given, results 0, OUT as it was (R165). -/
def State.failed (s : State) (code : Byte) : State := s.completed code s.outBuf 0 0 0 0 0 0

/-- The varint decode of the `len` bytes of `m` from `off` reads an unwritten byte (R55, R201): the first byte, or one of the
bytes up to the tag's length where the slice holds that many. -/
def VarintReadsUnwritten (m : Memory) (off len : Nat) : Prop :=
  0 < len ∧ (m.read off = none ∨
    ∃ b, m.read off = some b ∧ 2 ^ (tagField b).toNat ≤ len ∧ ∃ k < 2 ^ (tagField b).toNat, m.read (off + k) = none)

/-- The frame-header decode of the `len` bytes of `m` from `off` reads an unwritten byte (R55, R201): in the first varint, or,
where the first one is complete, in the second. -/
def HeaderReadsUnwritten (m : Memory) (off len : Nat) : Prop :=
  VarintReadsUnwritten m off len ∨
    ∃ b, m.read off = some b ∧ 2 ^ (tagField b).toNat ≤ len ∧ (∀ k < 2 ^ (tagField b).toNat, m.read (off + k) ≠ none) ∧
      VarintReadsUnwritten m (off + 2 ^ (tagField b).toNat) (len - 2 ^ (tagField b).toNat)

/-- `k` steps from `s` reach `t` with no fault and no refusal. -/
def Runs (k : Nat) (s t : State) : Prop := Sys2Proof.core.run k s = .next t

/-- The payload view: the IN bytes RES_PAYLOAD_OFF and RES_PAYLOAD_LEN name, as they are now (R66). -/
def payloadView (s : State) : List (Option Byte) := memRead s.inBuf s.resPayloadOff.toNat s.resPayloadLen.toNat

/-- The next step is the host's write of `w` to CMD while BUSY = 0, which starts a command (R23). -/
def StartsCommand (w : Word) (s : State) : Prop :=
  s.busy = false ∧ ∃ rest, s.agenda = .host (.write 8 (s.params.base + regOffset .cmd) w) :: rest

/-- The next step is a host read of STATUS, and it returns BUSY = 0. -/
def ReadsIdleStatus (s : State) : Prop :=
  ∃ rest t v, s.agenda = .host (.read 8 (s.params.base + regOffset .status)) :: rest ∧ step s = .next t ∧
    t.readData = some v ∧ v.getLsbD 8 = false

/-- The end of a command (R205): `s` writes `w` to CMD, and the step after the first `n` is the first host STATUS read since then
that returns BUSY = 0; `t` is the state after that read, with no fault on the way. -/
def CommandEnds (w : Word) (s : State) (n : Nat) (t : State) : Prop :=
  StartsCommand w s ∧ Runs (n + 1) s t ∧ (∃ u, Runs n s u ∧ ReadsIdleStatus u) ∧
    ∀ k < n, ∀ u, Runs k s u → ¬ ReadsIdleStatus u

end Sys2Proof.Machine
end

