-- ==== Sys2Proof/Certificates/Slice0/Obligations.lean ====
section
/-! DEFINITION. The statements for the provers. Each docstring names the rule of spec/ it formalises. -/

open Sys2Proof Sys2Proof.Machine

/-! ### Command words -/

/-- 30_encoding.md R70: the decoder reads back every command from its word. -/
def Obligations.EncodeThenDecodeIsIdentity : Prop :=
  ∀ i : Instr, decode (encode i) = .ok i ∧ decodeTableWord 64 (encode i).toNat = some i ∧
    legalCommandWord (encode i) = true

/-- 30_encoding.md R70: the command map, word by word. A word whose 64 bits are a row's is that row's command, no other word
is, and a word with a bit of RSVD set is none. -/
def Obligations.DecodeAcceptsExactlyTheMap : Prop :=
  ∀ w : Word,
    (decode w = .ok .vlen ↔ w = 0x0000000000000001) ∧
    (decode w = .ok .venc ↔ w = 0x0000000000000002) ∧
    (decode w = .ok .vdec ↔ w = 0x0000000000000003) ∧
    (decode w = .ok .fhdec ↔ w = 0x0000000000000004) ∧
    (decode w = .ok .fhenc ↔ w = 0x0000000000000005) ∧
    (decode w = .ok .fdec ↔ w = 0x0000000000000006) ∧
    (∀ row ∈ opTable, decode w = .ok row.command ↔ w &&& row.mask = row.pattern) ∧
    (w.toNat / 16 ≠ 0 → decode w = .error .reservedBits)

/-- A few command words of R70 and R71 and what the decoder makes of them. -/
def Obligations.SampleWordsDecode : Prop :=
  decode 0b0001 = .ok .vlen ∧ decode 0b0010 = .ok .venc ∧ decode 0b0011 = .ok .vdec ∧
  decode 0b0100 = .ok .fhdec ∧ decode 0b0101 = .ok .fhenc ∧ decode 0b0110 = .ok .fdec ∧
  decode 0x0 = .error .reservedOp ∧ decode 0x7 = .error .reservedOp ∧ decode 0xF = .error .reservedOp ∧
  decode 0x10 = .error .reservedBits ∧ decode 0x8000000000000001 = .error .reservedBits

/-- 30_encoding.md R71 and 60_exceptions.md R161: a word with RSVD nonzero, or with OP 0x0 or 0x7 to 0xF, starts a command
like any other, and its completion is an error completion with 0xF1 whatever the operands, windows and buffers hold. -/
def Obligations.IllegalWordCompletesWithF1 : Prop :=
  ∀ (s : State) (w : Word), s.busy = false →
    (w.toNat / 16 ≠ 0 ∨ w.toNat % 16 = 0 ∨ 7 ≤ w.toNat % 16) →
    hostAccess (.write 8 (s.params.base + 0x000) w) s =
      .next { s with cmd := w, busy := true, statusCode := 0xFE, pending := some w } ∧
    completionStep { s with cmd := w, busy := true, statusCode := 0xFE, pending := some w } =
      .next (State.failed { s with cmd := w } 0xF1)

/-! ### Steps -/

/-- A step whose turn is the completion runs the command the word in flight decodes to: where the agenda says so, where the
agenda is empty, and after `withFetchWord`. The agenda and `withFetchWord` are the model's own (Log 2, 8). -/
def Obligations.StepRunsTheDecodedCommand : Prop :=
  ∀ (s : State) (i : Instr),
    (∀ w rest, s.agenda = .completion :: rest → s.pending = some w → decode w = .ok i →
      step s = exec i { s with agenda := rest }) ∧
    (∀ w, s.agenda = [] → s.pending = some w → decode w = .ok i → step s = exec i s) ∧
    (∀ nbits w, decodeTableWord nbits w = some i →
      step (s.withFetchWord nbits w) =
        exec i { s with
          cmd := BitVec.ofNat 64 (w % 2 ^ nbits)
          busy := true
          statusCode := 0xFE
          pending := some (BitVec.ofNat 64 (w % 2 ^ nbits)) })

/-- 20_memory.md R61: the other steps. The next entry of the total order is taken and leaves the agenda; a second host
agent is refused (R174); with nothing to do, nothing changes. The agenda is the model's own (Log 2). -/
def Obligations.StepTakesTheNextEvent : Prop :=
  ∀ s : State,
    (∀ a rest, s.agenda = .host a :: rest → step s = hostAccess a { s with agenda := rest }) ∧
    (∀ rest, s.agenda = .reset :: rest → step s = .next (assertReset { s with agenda := rest })) ∧
    (∀ a rest, s.agenda = .otherHost a :: rest → step s = .refused .secondHostAgent) ∧
    (∀ rest, s.agenda = .completion :: rest → s.pending = none → step s = .next { s with agenda := rest }) ∧
    (s.agenda = [] → s.pending = none → step s = .next s)

/-! ### Results of the commands -/

/-- 40_varint.md R103 and R104: VLEN, whole. It completes in every state, and nothing but STATUS and the results changes. -/
def Obligations.VlenResult : Prop :=
  decode 0x0000000000000001 = .ok .vlen ∧
  ∀ s : State,
    (s.valueIn.toNat ≤ 63 → exec .vlen s = .next (s.completed 0x00 s.outBuf 0 0 0 1 0 0)) ∧
    (64 ≤ s.valueIn.toNat → s.valueIn.toNat ≤ 16383 → exec .vlen s = .next (s.completed 0x00 s.outBuf 0 0 0 2 0 0)) ∧
    (16384 ≤ s.valueIn.toNat → s.valueIn.toNat ≤ 1073741823 →
      exec .vlen s = .next (s.completed 0x00 s.outBuf 0 0 0 4 0 0)) ∧
    (1073741824 ≤ s.valueIn.toNat → s.valueIn.toNat ≤ 2 ^ 62 - 1 →
      exec .vlen s = .next (s.completed 0x00 s.outBuf 0 0 0 8 0 0)) ∧
    (2 ^ 62 ≤ s.valueIn.toNat → exec .vlen s = .next (s.failed 0x02)) ∧
    (∀ t, exec .vlen s = .next t → t.statusCode ∈ [(0x00 : Byte), 0x02])

/-- 40_varint.md R105: VENC, whole: the three errors in their priority, and the success. -/
def Obligations.VencResult : Prop :=
  decode 0x0000000000000002 = .ok .venc ∧
  ∀ s : State,
    (¬ s.OutWindow → exec .venc s = .next (s.failed 0xF2)) ∧
    (s.OutWindow → max62 < s.valueIn.toNat → exec .venc s = .next (s.failed 0x02)) ∧
    (s.OutWindow → s.valueIn.toNat ≤ max62 → s.outCap.toNat < tier s.valueIn.toNat →
      exec .venc s = .next (s.failed 0x01)) ∧
    (s.OutWindow → s.valueIn.toNat ≤ max62 → tier s.valueIn.toNat ≤ s.outCap.toNat →
      exec .venc s = .next (s.completed 0x00
        (memWrite s.outBuf s.outOff.toNat (varintBytes s.valueIn.toNat)) 0 0 0 (tier s.valueIn.toNat) 0 0)) ∧
    (∀ t, exec .venc s = .next t → t.statusCode ∈ [(0x00 : Byte), 0x01, 0x02, 0xF2])

/-- 40_varint.md R107: VDEC, whole. `b` is the first byte of the slice and `2 ^ tag` the length its tag stands for. The
bytes of the read set are written; what happens where one is not is `UnwrittenInputFaults`. -/
def Obligations.VdecResult : Prop :=
  decode 0x0000000000000003 = .ok .vdec ∧
  ∀ s : State,
    (¬ s.InWindow → exec .vdec s = .next (s.failed 0xF2)) ∧
    (s.InWindow → s.inLen.toNat = 0 → exec .vdec s = .next (s.failed 0x01)) ∧
    (∀ b, s.InWindow → 0 < s.inLen.toNat → s.inBuf.read s.inOff.toNat = some b →
      s.inLen.toNat < 2 ^ (tagField b).toNat → exec .vdec s = .next (s.failed 0x01)) ∧
    (∀ b rest, s.InWindow → (b :: rest).length = 2 ^ (tagField b).toNat → 2 ^ (tagField b).toNat ≤ s.inLen.toNat →
      memRead s.inBuf s.inOff.toNat (2 ^ (tagField b).toNat) = (b :: rest).map some →
      exec .vdec s = .next (s.completed 0x00 s.outBuf
        (valueOf (b :: rest) % 2 ^ (8 * 2 ^ (tagField b).toNat - 2)) 0 0 (2 ^ (tagField b).toNat) 0 0)) ∧
    (∀ t, exec .vdec s = .next t → t.statusCode ∈ [(0x00 : Byte), 0x01, 0xF2])

/-- 41_frame.md R132: FHDEC, whole: the window, the four truncations, the success. A varint that decodes from a written
prefix of the slice is the header's field whatever follows. The pure decoder has no other error. -/
def Obligations.FhdecResult : Prop :=
  decode 0x0000000000000004 = .ok .fhdec ∧
  (∀ bs e, frameHeaderDecode bs = .error e → e = .varint .bufferTooSmall) ∧
  ∀ s : State,
    (¬ s.InWindow → exec .fhdec s = .next (s.failed 0xF2)) ∧
    (s.InWindow → s.inLen.toNat = 0 → exec .fhdec s = .next (s.failed 0x21)) ∧
    (∀ b, s.InWindow → 0 < s.inLen.toNat → s.inBuf.read s.inOff.toNat = some b →
      s.inLen.toNat < 2 ^ (tagField b).toNat → exec .fhdec s = .next (s.failed 0x21)) ∧
    (∀ bs ty a, s.InWindow → bs.map some <+: inSlice s → varintDecode bs = .ok (ty, a) →
      (s.inLen.toNat = a → exec .fhdec s = .next (s.failed 0x21)) ∧
      (∀ b, a < s.inLen.toNat → s.inBuf.read (s.inOff.toNat + a) = some b →
        s.inLen.toNat - a < 2 ^ (tagField b).toNat → exec .fhdec s = .next (s.failed 0x21)) ∧
      (∀ bs' len b, bs'.map some <+: (inSlice s).drop a → varintDecode bs' = .ok (len, b) →
        exec .fhdec s = .next (s.completed 0x00 s.outBuf 0 ty len (a + b) 0 0))) ∧
    (∀ t, exec .fhdec s = .next t → t.statusCode ∈ [(0x00 : Byte), 0x21, 0xF2])

/-- 41_frame.md R134 and R136: FHENC, whole: the three errors in their priority (a field at 2^62 or above gives 0x22 whatever
the capacity), and the success. -/
def Obligations.FhencResult : Prop :=
  decode 0x0000000000000005 = .ok .fhenc ∧
  ∀ s : State,
    (¬ s.OutWindow → exec .fhenc s = .next (s.failed 0xF2)) ∧
    (s.OutWindow → max62 < s.tyIn.toNat ∨ max62 < s.lenIn.toNat → exec .fhenc s = .next (s.failed 0x22)) ∧
    (s.OutWindow → s.tyIn.toNat ≤ max62 → s.lenIn.toNat ≤ max62 →
      s.outCap.toNat < tier s.tyIn.toNat + tier s.lenIn.toNat → exec .fhenc s = .next (s.failed 0x11)) ∧
    (s.OutWindow → s.tyIn.toNat ≤ max62 → s.lenIn.toNat ≤ max62 →
      tier s.tyIn.toNat + tier s.lenIn.toNat ≤ s.outCap.toNat →
      exec .fhenc s = .next (s.completed 0x00
        (memWrite s.outBuf s.outOff.toNat (varintBytes s.tyIn.toNat ++ varintBytes s.lenIn.toNat))
        0 0 0 (tier s.tyIn.toNat + tier s.lenIn.toNat) 0 0)) ∧
    (∀ t, exec .fhenc s = .next t → t.statusCode ∈ [(0x00 : Byte), 0x11, 0x22, 0xF2])

/-- 41_frame.md R137 and R138: FDEC, whole: FHDEC's errors, then the payload check on unbounded naturals, then the success
with the payload located. -/
def Obligations.FdecResult : Prop :=
  decode 0x0000000000000006 = .ok .fdec ∧
  ∀ s : State,
    (¬ s.InWindow → exec .fdec s = .next (s.failed 0xF2)) ∧
    (s.InWindow → s.inLen.toNat = 0 → exec .fdec s = .next (s.failed 0x21)) ∧
    (∀ b, s.InWindow → 0 < s.inLen.toNat → s.inBuf.read s.inOff.toNat = some b →
      s.inLen.toNat < 2 ^ (tagField b).toNat → exec .fdec s = .next (s.failed 0x21)) ∧
    (∀ bs ty a, s.InWindow → bs.map some <+: inSlice s → varintDecode bs = .ok (ty, a) →
      (s.inLen.toNat = a → exec .fdec s = .next (s.failed 0x21)) ∧
      (∀ b, a < s.inLen.toNat → s.inBuf.read (s.inOff.toNat + a) = some b →
        s.inLen.toNat - a < 2 ^ (tagField b).toNat → exec .fdec s = .next (s.failed 0x21)) ∧
      (∀ bs' len b, bs'.map some <+: (inSlice s).drop a → varintDecode bs' = .ok (len, b) →
        (s.inLen.toNat - (a + b) < len → exec .fdec s = .next (s.failed 0x12)) ∧
        (len ≤ s.inLen.toNat - (a + b) →
          exec .fdec s = .next (s.completed 0x00 s.outBuf 0 ty len (a + b + len) (s.inOff.toNat + (a + b)) len)))) ∧
    (∀ t, exec .fdec s = .next t → t.statusCode ∈ [(0x00 : Byte), 0x12, 0x21, 0xF2])

/-! ### The wire formats -/

/-- 30_encoding.md R73: the layout of an L-byte varint, byte by byte. -/
def Obligations.VarintByteLayout : Prop :=
  ∀ (L tag v : Nat), (L, tag) ∈ [(1, 0), (2, 1), (4, 2), (8, 3)] → v < 2 ^ (8 * L - 2) →
    ∃ b rest, varintBytesAt v L = b :: rest ∧ (b :: rest).length = L ∧
      (tagField b).toNat = tag ∧ (topValueField b).toNat = v / 256 ^ (L - 1) ∧
      ∀ k, 1 ≤ k → k < L → (b :: rest)[k]? = some (BitVec.ofNat 8 (v / 256 ^ (L - 1 - k)))

/-- 30_encoding.md R75: the value a decode assembles is `value_of(s) mod 2^(8L-2)`, that is the big-endian number of the
first byte's low six bits and the bytes after it. -/
def Obligations.ValueAssemblyIsBigEndian : Prop :=
  ∀ (b : Byte) (rest : List Byte),
    assembleValue (topValueField b).toNat rest = valueOf (b :: rest) % 2 ^ (8 * (rest.length + 1) - 2) ∧
    assembleValue (topValueField b).toNat rest =
      (b.toNat % 64) * 256 ^ rest.length + valueOf rest

/-- 30_encoding.md R78: every sequence at least as long as its first byte's tag says begins with a legal varint, whose value
is in the domain. 40_varint.md R112: an input shorter than its tag says, the empty one too, fails BufferTooSmall. There is no
other failure. -/
def Obligations.DecodeFailsOnlyOnShortInput : Prop :=
  varintDecode [] = .error .bufferTooSmall ∧
  (∀ (b : Byte) (rest : List Byte), (b :: rest).length < 2 ^ (tagField b).toNat →
    varintDecode (b :: rest) = .error .bufferTooSmall) ∧
  (∀ (b : Byte) (rest : List Byte), 2 ^ (tagField b).toNat ≤ (b :: rest).length →
    ∃ v, varintDecode (b :: rest) = .ok (v, 2 ^ (tagField b).toNat) ∧ v ≤ max62) ∧
  (∀ (s : List Byte) (e : VarIntError), varintDecode s = .error e →
    e = .bufferTooSmall ∧ (s = [] ∨ ∃ b rest, s = b :: rest ∧ s.length < 2 ^ (tagField b).toNat))

/-- 40_varint.md R110: decoding what `varint_encode` gives returns the value and its length. -/
def Obligations.VarintRoundTrip : Prop :=
  ∀ v cap : Nat, v ≤ max62 → tier v ≤ cap →
    ∃ bs, varintEncode v cap = .ok bs ∧ varintDecode bs = .ok (v, tier v) ∧ bs.length = tier v

/-- 40_varint.md R111 and R113: the tier never falls, is 1, 2, 4 or 8, and changes at R113's boundaries. -/
def Obligations.TierBoundaries : Prop :=
  (∀ v w : Nat, v ≤ w → w ≤ max62 → tier v ≤ tier w ∧ tier v ∈ [1, 2, 4, 8]) ∧
  varintLen 63 = .ok 1 ∧ varintLen 64 = .ok 2 ∧ varintLen 16383 = .ok 2 ∧ varintLen 16384 = .ok 4 ∧
  varintLen 1073741823 = .ok 4 ∧ varintLen 1073741824 = .ok 8 ∧
  ∀ cap, varintEncode (2 ^ 62) cap = .error .valueTooLarge

/-- 40_varint.md R108: a varint of any of the four lengths decodes to its value and that length, canonical or not, whatever
follows it, by the pure function and by VDEC; and the value is in the domain. -/
def Obligations.NonCanonicalVarintAccepted : Prop :=
  ∀ (L v : Nat) (trail : List Byte), L ∈ [1, 2, 4, 8] → v < 2 ^ (8 * L - 2) →
    v ≤ max62 ∧ varintDecode (varintBytesAt v L ++ trail) = .ok (v, L) ∧
    ∀ s : State, s.InWindow → inSlice s = (varintBytesAt v L ++ trail).map some →
      exec .vdec s = .next (s.completed 0x00 s.outBuf v 0 0 L 0 0)

/-- 40_varint.md R109: the InvalidEncoding branch is never taken, and no command produces 0x03 or 0x23. -/
def Obligations.InvalidEncodingNeverOccurs : Prop :=
  (∀ s : List Byte, varintDecode s ≠ .error .invalidEncoding) ∧
  (∀ s : List Byte, frameHeaderDecode s ≠ .error (.varint .invalidEncoding)) ∧
  ∀ (i : Instr) (s t : State), exec i s = .next t → t.statusCode ≠ 0x03 ∧ t.statusCode ≠ 0x23

/-- 40_varint.md R106: what a successful VENC wrote, read back from OUT, decodes to VALUE_IN and its tier, and has the
length RES_COUNT says. -/
def Obligations.VencWritesTheCanonicalForm : Prop :=
  ∀ s t : State, exec .venc s = .next t → t.statusCode = 0x00 →
    ∃ bs, memRead t.outBuf s.outOff.toNat t.resCount.toNat = bs.map some ∧
      varintDecode bs = .ok (s.valueIn.toNat, tier s.valueIn.toNat) ∧ t.resCount.toNat = tier s.valueIn.toNat

/-- 41_frame.md R141: a header encoded and followed by its payload decodes to that header, that payload at the header's
end, and the bytes of both. -/
def Obligations.FrameRoundTrip : Prop :=
  ∀ (ty len cap : Nat) (p : List Byte), ty ≤ max62 → len ≤ max62 → tier ty + tier len ≤ cap → p.length = len →
    ∃ hb, frameHeaderEncode ty len cap = .ok hb ∧
      frameDecode (hb ++ p) = .ok ({ ty := ty, len := len }, p, hb.length, hb.length + len)

/-- 41_frame.md R142: a header that declares more payload than the slice holds fails LengthExceedsInput: in the pure
function, and in FDEC with code 0x12. R142's case is `h.len = 4` and three bytes. -/
def Obligations.OverReadGuard : Prop :=
  ∀ (hb trail : List Byte) (h : FrameHeader), frameHeaderDecode hb = .ok (h, hb.length) → trail.length < h.len →
    frameDecode (hb ++ trail) = .error .lengthExceedsInput ∧
    ∀ s : State, s.InWindow → inSlice s = (hb ++ trail).map some → exec .fdec s = .next (s.failed 0x12)

/-! ### Frames, widths and agreement of the commands -/

/-- 60_exceptions.md R164 and 10_state.md R27: what every completion leaves as it was, and that it ends the command. OUT is
the subject of `EncodersWriteExactlyTheirBytes`. -/
def Obligations.CommandsKeepEverythingElse : Prop :=
  ∀ (i : Instr) (s t : State), exec i s = .next t →
    t.params = s.params ∧ t.cmd = s.cmd ∧ t.valueIn = s.valueIn ∧ t.tyIn = s.tyIn ∧ t.lenIn = s.lenIn ∧
    t.inOff = s.inOff ∧ t.inLen = s.inLen ∧ t.outOff = s.outOff ∧ t.outCap = s.outCap ∧ t.inBuf = s.inBuf ∧
    t.agenda = s.agenda ∧ t.readData = s.readData ∧ t.draws = s.draws ∧ t.busy = false ∧ t.pending = none

/-- 20_memory.md R56: the write set. A successful VENC or FHENC writes its bytes at OUT_OFF and no other byte; every other
completion writes none. -/
def Obligations.EncodersWriteExactlyTheirBytes : Prop :=
  ∀ (i : Instr) (s t : State) (j : Nat), exec i s = .next t →
    (i = .venc → t.statusCode = 0x00 → s.outOff.toNat ≤ j → j < s.outOff.toNat + tier s.valueIn.toNat →
      t.outBuf.read j = (varintBytes s.valueIn.toNat)[j - s.outOff.toNat]?) ∧
    (i = .venc → j < s.outOff.toNat ∨ s.outOff.toNat + tier s.valueIn.toNat ≤ j →
      t.outBuf.read j = s.outBuf.read j) ∧
    (i = .fhenc → t.statusCode = 0x00 → s.outOff.toNat ≤ j →
      j < s.outOff.toNat + (tier s.tyIn.toNat + tier s.lenIn.toNat) →
      t.outBuf.read j = (varintBytes s.tyIn.toNat ++ varintBytes s.lenIn.toNat)[j - s.outOff.toNat]?) ∧
    (i = .fhenc → j < s.outOff.toNat ∨ s.outOff.toNat + (tier s.tyIn.toNat + tier s.lenIn.toNat) ≤ j →
      t.outBuf.read j = s.outBuf.read j) ∧
    (t.statusCode ≠ 0x00 → t.outBuf.read j = s.outBuf.read j) ∧
    (i ≠ .venc → i ≠ .fhenc → t.outBuf.read j = s.outBuf.read j)

/-- 41_frame.md R135: FHENC writes all the header's bytes or none. -/
def Obligations.FhencIsAtomic : Prop :=
  ∀ s t : State, exec .fhenc s = .next t →
    (t.statusCode = 0x00 ∧ t.resCount.toNat = tier s.tyIn.toNat + tier s.lenIn.toNat ∧
      memRead t.outBuf s.outOff.toNat (tier s.tyIn.toNat + tier s.lenIn.toNat) =
        (varintBytes s.tyIn.toNat ++ varintBytes s.lenIn.toNat).map some ∧
      ∀ j, s.outOff.toNat + (tier s.tyIn.toNat + tier s.lenIn.toNat) ≤ j → t.outBuf.read j = s.outBuf.read j) ∨
    (t.statusCode ≠ 0x00 ∧ t.outBuf = s.outBuf ∧
      (s.OutWindow → s.tyIn.toNat ≤ max62 → s.lenIn.toNat ≤ max62 →
        s.outCap.toNat < tier s.tyIn.toNat + tier s.lenIn.toNat))

/-- 60_exceptions.md R165: an error completion writes the code, zeroes the six results, ends the command and leaves IN,
OUT, CMD, the operand and the window registers as they were. -/
def Obligations.ErrorsArePrecise : Prop :=
  ∀ (i : Instr) (s t : State), exec i s = .next t → t.statusCode ≠ 0x00 →
    t.resultsZero ∧ t.busy = false ∧ t.pending = none ∧ t.outBuf = s.outBuf ∧ t.inBuf = s.inBuf ∧ t.cmd = s.cmd ∧
    t.valueIn = s.valueIn ∧ t.tyIn = s.tyIn ∧ t.lenIn = s.lenIn ∧
    t.inOff = s.inOff ∧ t.inLen = s.inLen ∧ t.outOff = s.outOff ∧ t.outCap = s.outCap

/-- 60_exceptions.md R160 (the column "raised by") and R162: the codes each command completes with; the code of a wrapped
varint error is 0x20 with the varint error's code, and different errors have different codes. -/
def Obligations.EachCommandHasItsCodes : Prop :=
  (∀ e : VarIntError, codeByte (frameErrorCode (.varint e)) = 0x20 ||| codeByte (varintErrorCode e)) ∧
  (∀ e e' : VarIntError, codeByte (varintErrorCode e) = codeByte (varintErrorCode e') → e = e') ∧
  (∀ e e' : FrameError, codeByte (frameErrorCode e) = codeByte (frameErrorCode e') → e = e') ∧
  ∀ s t : State,
    (exec .vlen s = .next t → t.statusCode ∈ [(0x00 : Byte), 0x02]) ∧
    (exec .venc s = .next t → t.statusCode ∈ [(0x00 : Byte), 0x01, 0x02, 0xF2]) ∧
    (exec .vdec s = .next t → t.statusCode ∈ [(0x00 : Byte), 0x01, 0xF2]) ∧
    (exec .fhdec s = .next t → t.statusCode ∈ [(0x00 : Byte), 0x21, 0xF2]) ∧
    (exec .fhenc s = .next t → t.statusCode ∈ [(0x00 : Byte), 0x11, 0x22, 0xF2]) ∧
    (exec .fdec s = .next t → t.statusCode ∈ [(0x00 : Byte), 0x12, 0x21, 0xF2])

/-- 10_state.md R28: the result table. A completion zeroes every result register its command does not produce. -/
def Obligations.UnproducedResultsAreZero : Prop :=
  ∀ (i : Instr) (s t : State), exec i s = .next t →
    (i ≠ .vdec → t.resValue = 0) ∧
    (i ≠ .fhdec → i ≠ .fdec → t.resTy = 0 ∧ t.resLen = 0) ∧
    (i ≠ .fdec → t.resPayloadOff = 0 ∧ t.resPayloadLen = 0) ∧
    (t.statusCode = 0x00 → i = .vlen ∨ i = .venc ∨ i = .vdec → t.resCount.toNat ∈ [1, 2, 4, 8]) ∧
    (t.statusCode = 0x00 → i = .fhdec ∨ i = .fhenc → t.resCount.toNat ∈ [2, 3, 4, 5, 6, 8, 9, 10, 12, 16])

/-- 20_memory.md R54: a command whose window is illegal completes with 0xF2 and nothing else does; VLEN checks no window,
VENC and FHENC check the output window alone, VDEC, FHDEC and FDEC the input window alone. -/
def Obligations.WindowErrorExactlyWhenIllegal : Prop :=
  ∀ s : State,
    (∀ i, i = .vdec ∨ i = .fhdec ∨ i = .fdec →
      (¬ s.InWindow → exec i s = .next (s.failed 0xF2)) ∧
      (∀ t, s.InWindow → exec i s = .next t → t.statusCode ≠ 0xF2)) ∧
    (∀ i, i = .venc ∨ i = .fhenc →
      (¬ s.OutWindow → exec i s = .next (s.failed 0xF2)) ∧
      (∀ t, s.OutWindow → exec i s = .next t → t.statusCode ≠ 0xF2)) ∧
    (∀ t, exec .vlen s = .next t → t.statusCode ≠ 0xF2)

/-- 70_reset_and_hazards.md R201: a decode command with a legal window faults exactly when a byte of its read set (R55) is
unwritten. The other three commands never fault. A host read of an unwritten byte returns a free byte, in Log 4's form. -/
def Obligations.UnwrittenInputFaults : Prop :=
  ∀ s : State,
    (s.InWindow → (exec .vdec s = .fault .readUnwrittenInput ↔
      VarintReadsUnwritten s.inBuf s.inOff.toNat s.inLen.toNat)) ∧
    (s.InWindow → (exec .fhdec s = .fault .readUnwrittenInput ↔
      HeaderReadsUnwritten s.inBuf s.inOff.toNat s.inLen.toNat)) ∧
    (s.InWindow → (exec .fdec s = .fault .readUnwrittenInput ↔
      HeaderReadsUnwritten s.inBuf s.inOff.toNat s.inLen.toNat)) ∧
    (∀ i, (∃ t, exec i s = .next t) ∨ exec i s = .fault .readUnwrittenInput) ∧
    (∀ i, i = .vlen ∨ i = .venc ∨ i = .fhenc → ∃ t, exec i s = .next t) ∧
    (∀ i, s.params.wf = true → i < s.params.inMax → s.inBuf.read i = none →
      hostAccess (.read 1 (s.params.base + 0x10000 + i)) s =
        .next { s with readData := some ((Config.freeByte s.draws).setWidth 64), draws := s.draws + 1 }) ∧
    (∀ j, s.params.wf = true → j < s.params.outMax → s.outBuf.read j = none →
      hostAccess (.read 1 (s.params.base + 0x20000 + j)) s =
        .next { s with readData := some ((Config.freeByte s.draws).setWidth 64), draws := s.draws + 1 })

/-- 40_varint.md R115 and 41_frame.md R144: a command's code, results and OUT writes are a function of the operand and window
registers and the IN bytes. Two states that agree on those, and on the parameters, give the same, whatever CMD, STATUS, OUT
and the results of earlier commands hold in them. -/
def Obligations.CommandsDependOnlyOnTheirInputs : Prop :=
  ∀ (i : Instr) (s u : State), s.params = u.params → s.valueIn = u.valueIn → s.tyIn = u.tyIn → s.lenIn = u.lenIn →
    s.inOff = u.inOff → s.inLen = u.inLen → s.outOff = u.outOff → s.outCap = u.outCap →
    (∀ j, s.inBuf.read j = u.inBuf.read j) →
    (∃ s' u' a bs, exec i s = .next s' ∧ exec i u = .next u' ∧
      s'.statusCode = u'.statusCode ∧ s'.resValue = u'.resValue ∧ s'.resTy = u'.resTy ∧ s'.resLen = u'.resLen ∧
      s'.resCount = u'.resCount ∧ s'.resPayloadOff = u'.resPayloadOff ∧ s'.resPayloadLen = u'.resPayloadLen ∧
      s'.outBuf = memWrite s.outBuf a bs ∧ u'.outBuf = memWrite u.outBuf a bs) ∨
    (exec i s = .fault .readUnwrittenInput ∧ exec i u = .fault .readUnwrittenInput)

/-- 40_varint.md R114: every result of a varint command fits its register, and a successful VENC stays in its window and in
OUT. -/
def Obligations.VarintResultsFit : Prop :=
  ∀ (i : Instr) (s t : State), i = .vlen ∨ i = .venc ∨ i = .vdec → exec i s = .next t →
    t.resValue.toNat ≤ 2 ^ 62 - 1 ∧ t.resCount.toNat ≤ 8 ∧
    (i = .venc → t.statusCode = 0x00 →
      s.outOff.toNat + t.resCount.toNat ≤ s.outOff.toNat + s.outCap.toNat ∧
      s.outOff.toNat + s.outCap.toNat ≤ s.params.outMax)

/-- 41_frame.md R143: every result of a frame command fits its register, and no sum wraps. -/
def Obligations.FrameResultsFit : Prop :=
  ∀ (i : Instr) (s t : State), s.params.wf = true → i = .fhdec ∨ i = .fhenc ∨ i = .fdec → exec i s = .next t →
    t.resTy.toNat ≤ 2 ^ 62 - 1 ∧ t.resLen.toNat ≤ 2 ^ 62 - 1 ∧
    (i = .fhdec ∨ i = .fhenc → t.resCount.toNat ≤ 16) ∧
    (i = .fhdec → t.resCount.toNat ≤ s.inLen.toNat) ∧
    (i = .fdec → t.statusCode = 0x00 →
      t.resCount.toNat ≤ s.inLen.toNat ∧ s.inLen.toNat ≤ 65536 ∧
      t.resCount.toNat - t.resLen.toNat ≤ 16 ∧ t.resLen.toNat ≤ t.resCount.toNat ∧
      t.resPayloadOff.toNat = s.inOff.toNat + (t.resCount.toNat - t.resLen.toNat) ∧
      t.resPayloadOff.toNat ≤ s.params.inMax ∧ s.params.inMax ≤ 65536)

/-- 41_frame.md R139: the payload location after a successful FDEC: an index into IN, inside the slice, RES_COUNT -
RES_PAYLOAD_LEN bytes from its start, with RES_PAYLOAD_LEN = RES_LEN; nothing is written to OUT. -/
def Obligations.PayloadLocation : Prop :=
  ∀ s t : State, s.params.wf = true → exec .fdec s = .next t → t.statusCode = 0x00 →
    t.resPayloadLen = t.resLen ∧ t.outBuf = s.outBuf ∧ t.inBuf = s.inBuf ∧
    s.inOff.toNat ≤ t.resPayloadOff.toNat ∧
    t.resPayloadOff.toNat - s.inOff.toNat = t.resCount.toNat - t.resPayloadLen.toNat ∧
    t.resPayloadOff.toNat + t.resPayloadLen.toNat ≤ s.inOff.toNat + s.inLen.toNat ∧
    payloadView t = ((inSlice s).drop (t.resCount.toNat - t.resPayloadLen.toNat)).take t.resPayloadLen.toNat

/-- 41_frame.md R140: FDEC's outcome does not depend on the bytes from the payload on, written or not. -/
def Obligations.FdecReadsNoPayloadByte : Prop :=
  ∀ (s t : State) (m : Memory), s.params.wf = true → exec .fdec s = .next t → t.statusCode = 0x00 →
    (∀ j, j < t.resPayloadOff.toNat → m.read j = s.inBuf.read j) →
    exec .fdec { s with inBuf := m } = .next { t with inBuf := m } ∧
    t.resLen.toNat ≤ s.inLen.toNat - (t.resCount.toNat - t.resLen.toNat)

/-- 41_frame.md R133: a truncated header is never 0x11; that code is FHENC's capacity check alone, and a header decode fails
only with the wrapped BufferTooSmall. -/
def Obligations.TruncatedHeaderIsWrapped : Prop :=
  (∀ (bs : List Byte) (e : FrameError), frameHeaderDecode bs = .error e →
    e = .varint .bufferTooSmall ∧ codeByte (frameErrorCode e) = 0x21) ∧
  (∀ (i : Instr) (s t : State), exec i s = .next t → t.statusCode = 0x11 →
    i = .fhenc ∧ s.outCap.toNat < tier s.tyIn.toNat + tier s.lenIn.toNat) ∧
  (∀ (i : Instr) (s t : State), exec i s = .next t → t.statusCode = 0x21 → i = .fhdec ∨ i = .fdec)

/-- 41_frame.md R145: FHDEC and FDEC agree on the header. -/
def Obligations.FhdecAndFdecAgree : Prop :=
  ∀ s : State,
    (∀ t, exec .fdec s = .next t → t.statusCode = 0x00 →
      ∃ u, exec .fhdec s = .next u ∧ u.statusCode = 0x00 ∧ u.resTy = t.resTy ∧ u.resLen = t.resLen ∧
        u.resCount.toNat = t.resCount.toNat - t.resPayloadLen.toNat) ∧
    (∀ u, exec .fhdec s = .next u → u.statusCode ≠ 0x00 →
      ∃ t, exec .fdec s = .next t ∧ t.statusCode = u.statusCode)

/-! ### The host's accesses -/

/-- 10_state.md R23: CMD. A write of `w` while BUSY = 0 sets CMD, BUSY, CODE and the word in flight and nothing else; a
read returns CMD. -/
def Obligations.CmdWriteStartsACommand : Prop :=
  State.reset.cmd = 0 ∧
  ∀ (s : State) (w : Word),
    (s.busy = false →
      hostAccess (.write 8 (s.params.base + 0x000) w) s =
        .next { s with cmd := w, busy := true, statusCode := 0xFE, pending := some w }) ∧
    (s.busy = true → hostAccess (.write 8 (s.params.base + 0x000) w) s = .fault .hazardWriteWhileBusy) ∧
    hostAccess (.read 8 (s.params.base + 0x000)) s = .next { s with readData := some s.cmd }

/-- 10_state.md R20: the register map and the areas around it. That a byte access reaches a reserved offset from 0x1000 on is
the model's reading (Log 7). -/
def Obligations.RegisterMap : Prop :=
  ∀ p : Params, p.wf = true →
    (∀ (r : Reg) (off : Nat),
      (r, off) ∈ [(Reg.cmd, 0x000), (Reg.status, 0x008), (Reg.valueIn, 0x010), (Reg.tyIn, 0x018), (Reg.lenIn, 0x020),
        (Reg.inOff, 0x028), (Reg.inLen, 0x030), (Reg.outOff, 0x038), (Reg.outCap, 0x040), (Reg.resValue, 0x048),
        (Reg.resTy, 0x050), (Reg.resLen, 0x058), (Reg.resCount, 0x060), (Reg.resPayloadOff, 0x068),
        (Reg.resPayloadLen, 0x070)] →
      locate p 8 (p.base + off) = .ok (.reg r)) ∧
    (∀ off, 0x078 ≤ off → off < 0x1000 → off % 8 = 0 → locate p 8 (p.base + off) = .ok .reserved) ∧
    (∀ off, 0x1000 ≤ off → off < 0x10000 → locate p 1 (p.base + off) = .ok .reserved) ∧
    (∀ i, i < p.inMax → locate p 1 (p.base + 0x10000 + i) = .ok (.inByte i)) ∧
    (∀ i, p.inMax ≤ i → i < 0x10000 → locate p 1 (p.base + 0x10000 + i) = .ok .reserved) ∧
    (∀ j, j < p.outMax → locate p 1 (p.base + 0x20000 + j) = .ok (.outByte j)) ∧
    (∀ j, p.outMax ≤ j → j < 0x10000 → locate p 1 (p.base + 0x20000 + j) = .ok .reserved)

/-- 10_state.md R20 and R21, 20_memory.md R58: the access rules. A wrong shape is refused; RO and reserved writes are ignored, busy
or not; reserved reads return 0, from 0x1000 on at every width (Log 7); a RW register reads back the value written, and 0 after
reset; with BUSY = 0 each result register reads as its value. That a write of a wrong shape is refused, and no hazard fault, while
BUSY = 1 is the model's choice (Log 17). -/
def Obligations.RegisterAccessRules : Prop :=
  ∀ s : State,
    (∀ bytes off v, off < 0x1000 → ¬ (bytes = 8 ∧ off % 8 = 0) →
      ∃ r, hostAccess (.read bytes (s.params.base + off)) s = .refused r ∧
        hostAccess (.write bytes (s.params.base + off) v) s = .refused r) ∧
    (∀ off v, off ∈ [0x008, 0x048, 0x050, 0x058, 0x060, 0x068, 0x070] →
      hostAccess (.write 8 (s.params.base + off) v) s = .next s) ∧
    (∀ off v, 0x078 ≤ off → off < 0x1000 → off % 8 = 0 →
      hostAccess (.write 8 (s.params.base + off) v) s = .next s ∧
      hostAccess (.read 8 (s.params.base + off)) s = .next { s with readData := some 0 }) ∧
    (∀ off v, off ∈ [0x000, 0x010, 0x018, 0x020, 0x028, 0x030, 0x038, 0x040] →
      (s.busy = false → ∃ t, hostAccess (.write 8 (s.params.base + off) v) s = .next t ∧
        hostAccess (.read 8 (s.params.base + off)) t = .next { t with readData := some v }) ∧
      hostAccess (.read 8 (s.params.base + off)) (assertReset s) = .next { assertReset s with readData := some 0 }) ∧
    (∀ r off, (r, off) ∈ [(s.resValue, 0x048), (s.resTy, 0x050), (s.resLen, 0x058), (s.resCount, 0x060),
        (s.resPayloadOff, 0x068), (s.resPayloadLen, 0x070)] → s.busy = false →
      hostAccess (.read 8 (s.params.base + off)) s = .next { s with readData := some r }) ∧
    (∀ bytes off v, s.params.wf = true → 1 ≤ bytes →
      0x1000 ≤ off ∧ off + bytes ≤ 0x10000 ∨ 0x10000 + s.params.inMax ≤ off ∧ off + bytes ≤ 0x20000 ∨
        0x20000 + s.params.outMax ≤ off ∧ off + bytes ≤ 0x30000 →
      hostAccess (.read bytes (s.params.base + off)) s = .next { s with readData := some 0 } ∧
      hostAccess (.write bytes (s.params.base + off) v) s = .next s)

/-- 10_state.md R25 and R26: an operand or window register takes every 64-bit value, and its write changes no other. -/
def Obligations.OperandWritesStoreTheValue : Prop :=
  ∀ (s : State) (v : Word), s.busy = false →
    hostAccess (.write 8 (s.params.base + 0x010) v) s = .next { s with valueIn := v } ∧
    hostAccess (.write 8 (s.params.base + 0x018) v) s = .next { s with tyIn := v } ∧
    hostAccess (.write 8 (s.params.base + 0x020) v) s = .next { s with lenIn := v } ∧
    hostAccess (.write 8 (s.params.base + 0x028) v) s = .next { s with inOff := v } ∧
    hostAccess (.write 8 (s.params.base + 0x030) v) s = .next { s with inLen := v } ∧
    hostAccess (.write 8 (s.params.base + 0x038) v) s = .next { s with outOff := v } ∧
    hostAccess (.write 8 (s.params.base + 0x040) v) s = .next { s with outCap := v }

/-- 10_state.md R24: a STATUS read gives CODE in bits 7:0, BUSY in bit 8 and 0 above. -/
def Obligations.StatusWordFields : Prop :=
  ∀ s : State, ∃ v, hostAccess (.read 8 (s.params.base + 0x008)) s = .next { s with readData := some v } ∧
    v.toNat = s.statusCode.toNat + (if s.busy then 256 else 0)

/-- 10_state.md R24: only a command's start, its completion and reset write CODE and BUSY. -/
def Obligations.OnlyCommandsWriteStatus : Prop :=
  ∀ s t : State, step s = .next t → ¬ (t.statusCode = s.statusCode ∧ t.busy = s.busy) →
    (∃ w rest, s.agenda = .host (.write 8 (s.params.base + 0x000) w) :: rest ∧ s.busy = false ∧ t.pending = some w) ∨
    (∃ rest, s.agenda = .reset :: rest) ∨
    ((s.agenda = [] ∨ ∃ rest, s.agenda = .completion :: rest) ∧ ∃ w, s.pending = some w)

/-- 70_reset_and_hazards.md R196: while BUSY = 1 a write to CMD, an operand, a window register, an IN or an OUT byte faults;
a write to a RO or reserved offset is ignored. That a byte write reaches a reserved offset from 0x1000 on is the model's reading
(Log 7). -/
def Obligations.WriteWhileBusyFaults : Prop :=
  ∀ (s : State) (v : Word), s.params.wf = true → s.busy = true →
    (∀ off, off ∈ [0x000, 0x010, 0x018, 0x020, 0x028, 0x030, 0x038, 0x040] →
      hostAccess (.write 8 (s.params.base + off) v) s = .fault .hazardWriteWhileBusy) ∧
    (∀ i, i < s.params.inMax →
      hostAccess (.write 1 (s.params.base + 0x10000 + i) v) s = .fault .hazardWriteWhileBusy) ∧
    (∀ j, j < s.params.outMax →
      hostAccess (.write 1 (s.params.base + 0x20000 + j) v) s = .fault .hazardWriteWhileBusy) ∧
    (∀ off, off ∈ [0x008, 0x048, 0x050, 0x058, 0x060, 0x068, 0x070] →
      hostAccess (.write 8 (s.params.base + off) v) s = .next s) ∧
    (∀ off, 0x078 ≤ off → off < 0x1000 → off % 8 = 0 →
      hostAccess (.write 8 (s.params.base + off) v) s = .next s) ∧
    (∀ off, 0x1000 ≤ off → off < 0x10000 ∨ 0x10000 + s.params.inMax ≤ off ∧ off < 0x20000 ∨
        0x20000 + s.params.outMax ≤ off ∧ off < 0x30000 →
      hostAccess (.write 1 (s.params.base + off) v) s = .next s)

/-- 70_reset_and_hazards.md R197: register reads while a command is in flight. STATUS, CMD, the operand and the window
registers are defined; a result register reads as a free value, in Log 4's form. -/
def Obligations.RegisterReadsWhileBusy : Prop :=
  ∀ s : State, s.Inv → s.busy = true →
    hostAccess (.read 8 (s.params.base + 0x008)) s = .next { s with readData := some 0x1FE } ∧
    (∀ r off, (r, off) ∈ [(s.cmd, 0x000), (s.valueIn, 0x010), (s.tyIn, 0x018), (s.lenIn, 0x020), (s.inOff, 0x028),
        (s.inLen, 0x030), (s.outOff, 0x038), (s.outCap, 0x040)] →
      hostAccess (.read 8 (s.params.base + off)) s = .next { s with readData := some r }) ∧
    (∀ off, off ∈ [0x048, 0x050, 0x058, 0x060, 0x068, 0x070] →
      hostAccess (.read 8 (s.params.base + off)) s =
        .next { s with readData := some (Config.freeWord s.draws), draws := s.draws + 1 })

/-- 70_reset_and_hazards.md R198 and R201: host reads of buffer bytes. An OUT byte while BUSY = 1, and an unwritten byte at
any time, read as a free byte, in Log 4's form; every other read returns the byte. -/
def Obligations.BufferReads : Prop :=
  ∀ s : State, s.params.wf = true →
    (∀ i b, i < s.params.inMax → s.inBuf.read i = some b →
      hostAccess (.read 1 (s.params.base + 0x10000 + i)) s = .next { s with readData := some (b.setWidth 64) }) ∧
    (∀ i, i < s.params.inMax → s.inBuf.read i = none →
      hostAccess (.read 1 (s.params.base + 0x10000 + i)) s =
        .next { s with readData := some ((Config.freeByte s.draws).setWidth 64), draws := s.draws + 1 }) ∧
    (∀ j b, j < s.params.outMax → s.busy = false → s.outBuf.read j = some b →
      hostAccess (.read 1 (s.params.base + 0x20000 + j)) s = .next { s with readData := some (b.setWidth 64) }) ∧
    (∀ j, j < s.params.outMax → s.busy = true ∨ s.outBuf.read j = none →
      hostAccess (.read 1 (s.params.base + 0x20000 + j)) s =
        .next { s with readData := some ((Config.freeByte s.draws).setWidth 64), draws := s.draws + 1 })

/-- 10_state.md R29 to R31: the host's byte writes. The byte written reads back, every other byte of that buffer keeps its
value, the other buffer is untouched; and no command changes IN. -/
def Obligations.BuffersAreDisjoint : Prop :=
  ∀ s : State, s.params.wf = true →
    (∀ i (b : Byte), i < s.params.inMax → s.busy = false →
      ∃ t, hostAccess (.write 1 (s.params.base + 0x10000 + i) (b.setWidth 64)) s = .next t ∧
        t.inBuf.read i = some b ∧ (∀ k, k ≠ i → t.inBuf.read k = s.inBuf.read k) ∧ t = { s with inBuf := t.inBuf }) ∧
    (∀ j (b : Byte), j < s.params.outMax → s.busy = false →
      ∃ t, hostAccess (.write 1 (s.params.base + 0x20000 + j) (b.setWidth 64)) s = .next t ∧
        t.outBuf.read j = some b ∧ (∀ k, k ≠ j → t.outBuf.read k = s.outBuf.read k) ∧ t = { s with outBuf := t.outBuf }) ∧
    (∀ i t, exec i s = .next t → t.inBuf = s.inBuf)

/-- 20_memory.md R53: an access that covers an IN or OUT byte and is not byte-wide is refused, at any alignment; a byte read of
any index is served, and with BUSY = 0 a byte write of any index. That an access partly on reserved offsets counts as a buffer
access is the model's reading (Log 7); that a wide write is refused, and no hazard fault, while BUSY = 1 is its choice (Log 17). -/
def Obligations.WideBufferAccessRefused : Prop :=
  ∀ s : State, s.params.wf = true →
    (∀ (bytes off k : Nat) (v : Word), bytes ≠ 1 → off ≤ k → k ≤ off + (bytes - 1) →
      0x10000 ≤ k ∧ k < 0x10000 + s.params.inMax ∨ 0x20000 ≤ k ∧ k < 0x20000 + s.params.outMax →
      ∃ r, hostAccess (.read bytes (s.params.base + off)) s = .refused r ∧
        hostAccess (.write bytes (s.params.base + off) v) s = .refused r) ∧
    (∀ i v, i < s.params.inMax →
      (∃ t, hostAccess (.read 1 (s.params.base + 0x10000 + i)) s = .next t) ∧
      (s.busy = false → ∃ t, hostAccess (.write 1 (s.params.base + 0x10000 + i) v) s = .next t)) ∧
    (∀ j v, j < s.params.outMax →
      (∃ t, hostAccess (.read 1 (s.params.base + 0x20000 + j)) s = .next t) ∧
      (s.busy = false → ∃ t, hostAccess (.write 1 (s.params.base + 0x20000 + j) v) s = .next t))

/-- 20_memory.md R58: side effects. A read changes nothing of the block. A write other than to CMD only stores: everything but
the operand registers, the window registers and the buffers stays as it was. -/
def Obligations.OnlyCmdWritesHaveSideEffects : Prop :=
  (∀ (s t : State) (bytes addr : Nat), hostAccess (.read bytes addr) s = .next t →
    t = { s with readData := t.readData, draws := t.draws }) ∧
  (∀ (s t : State) (bytes addr : Nat) (v : Word), hostAccess (.write bytes addr v) s = .next t →
    addr ≠ s.params.base + 0x000 →
    t.params = s.params ∧ t.agenda = s.agenda ∧ t.readData = s.readData ∧ t.draws = s.draws ∧
    t.cmd = s.cmd ∧ t.statusCode = s.statusCode ∧ t.busy = s.busy ∧ t.pending = s.pending ∧
    t.resValue = s.resValue ∧ t.resTy = s.resTy ∧ t.resLen = s.resLen ∧ t.resCount = s.resCount ∧
    t.resPayloadOff = s.resPayloadOff ∧ t.resPayloadLen = s.resPayloadLen)

/-- 70_reset_and_hazards.md R200: from the completion to the next CMD write STATUS and the results do not change; and OUT
changes only by a host write to it or by a successful VENC or FHENC completion. Which step it is is read off the agenda, the
model's own form of R61's order (Log 2). -/
def Obligations.ResultsAreStable : Prop :=
  ∀ s t : State, step s = .next t → (∀ rest, s.agenda ≠ .reset :: rest) →
    (s.pending = none → t.pending = none →
      t.statusCode = s.statusCode ∧ t.busy = s.busy ∧
      t.resValue = s.resValue ∧ t.resTy = s.resTy ∧ t.resLen = s.resLen ∧ t.resCount = s.resCount ∧
      t.resPayloadOff = s.resPayloadOff ∧ t.resPayloadLen = s.resPayloadLen) ∧
    (t.outBuf ≠ s.outBuf →
      (∃ j v rest, s.agenda = .host (.write 1 (s.params.base + 0x20000 + j) v) :: rest ∧ j < s.params.outMax) ∨
      ((s.agenda = [] ∨ ∃ rest, s.agenda = .completion :: rest) ∧ t.statusCode = 0x00 ∧
        (s.pending = some 0x2 ∨ s.pending = some 0x5)))

/-- 20_memory.md R66 and 70_reset_and_hazards.md R199: the payload view is a view. A host write outside it leaves what it
names; a host write to a byte of it changes that byte of the view and no other. -/
def Obligations.PayloadViewFollowsTheBuffer : Prop :=
  ∀ (s t : State) (i : Nat) (b : Byte), s.params.wf = true → i < s.params.inMax → s.busy = false →
    hostAccess (.write 1 (s.params.base + 0x10000 + i) (b.setWidth 64)) s = .next t →
    t.resPayloadOff = s.resPayloadOff ∧ t.resPayloadLen = s.resPayloadLen ∧
    (i < s.resPayloadOff.toNat ∨ s.resPayloadOff.toNat + s.resPayloadLen.toNat ≤ i → payloadView t = payloadView s) ∧
    (∀ k, k < s.resPayloadLen.toNat → i = s.resPayloadOff.toNat + k → payloadView t = (payloadView s).set k (some b))

/-! ### Reset, invariant, progress -/

/-- 10_state.md R32 and 70_reset_and_hazards.md R190: reset puts every piece of the block's state at its reset value,
whatever it held; and `State.reset` holds those values. -/
def Obligations.ResetValues : Prop :=
  ∀ s : State, ∀ t ∈ [State.reset, assertReset s],
    t.cmd = 0 ∧ t.statusCode = 0xFF ∧ t.busy = false ∧ t.pending = none ∧
    t.valueIn = 0 ∧ t.tyIn = 0 ∧ t.lenIn = 0 ∧ t.inOff = 0 ∧ t.inLen = 0 ∧ t.outOff = 0 ∧ t.outCap = 0 ∧
    t.resultsZero ∧ (∀ i, t.inBuf.read i = none) ∧ (∀ j, t.outBuf.read j = none)

/-- 70_reset_and_hazards.md R191 and R192: reset while a command is in flight abandons it, with none of its effects, and a
command is accepted at once. The agenda is the model's own (Log 2); that reset leaves it and the parameters is Log 10. -/
def Obligations.ResetAbandonsTheCommand : Prop :=
  ∀ (s : State) (rest : List Event), s.agenda = .reset :: rest → s.busy = true →
    ∃ t, step s = .next t ∧ t.agenda = rest ∧ t.params = s.params ∧
      t.pending = none ∧ t.busy = false ∧ t.statusCode = 0xFF ∧ t.resultsZero ∧ (∀ j, t.outBuf.read j = none) ∧
      completionStep t = .next t ∧
      ∀ w, ∃ u, hostAccess (.write 8 (t.params.base + 0x000) w) t = .next u ∧ u.pending = some w ∧ u.busy = true

/-- 70_reset_and_hazards.md R193: right after reset every command may be given with its registers at 0: VLEN succeeds with
length 1, VENC and VDEC fail 0x01, FHDEC and FDEC fail 0x21, FHENC fails 0x11; none faults, though no IN byte is written. -/
def Obligations.ZeroRegistersAreLegalOperands : Prop :=
  ∀ s : State,
    exec .vlen (assertReset s) = .next ((assertReset s).completed 0x00 [] 0 0 0 1 0 0) ∧
    exec .venc (assertReset s) = .next ((assertReset s).failed 0x01) ∧
    exec .vdec (assertReset s) = .next ((assertReset s).failed 0x01) ∧
    exec .fhdec (assertReset s) = .next ((assertReset s).failed 0x21) ∧
    exec .fhenc (assertReset s) = .next ((assertReset s).failed 0x11) ∧
    exec .fdec (assertReset s) = .next ((assertReset s).failed 0x21)

/-- The invariant holds right after reset. -/
def Obligations.ResetMeetsTheInvariant : Prop := State.reset.Inv

/-- Every step keeps the invariant: BUSY and the word in flight agree (R27), CODE holds only listed values (R24, R109), an
error leaves no result (R165), the buffers keep their canonical form and their size (R29, R30), the results fit their
registers and the payload view lies in IN (R114, R139, R143). -/
def Obligations.StepKeepsTheInvariant : Prop :=
  ∀ s t : State, s.Inv → step s = .next t → t.Inv

/-- 70_reset_and_hazards.md R203: no command stays in flight. A run that takes every entry of the agenda and one step more, with no
stop, ends with nothing in flight, BUSY = 0 and a completion code or 0xFF: a command in flight has completed, or a reset among the
entries has abandoned it (R191). The agenda is the model's form of LATENCY (Log 2). -/
def Obligations.NoCommandStaysInFlight : Prop :=
  ∀ s t : State, s.Inv → Runs (s.agenda.length + 1) s t →
    t.agenda = [] ∧ t.pending = none ∧ t.busy = false ∧ t.statusCode ≠ 0xFE ∧ step t = .next t

/-- 30_encoding.md R86 (WAIT), 20_memory.md R61 and 70_reset_and_hazards.md R205: whatever accesses the host makes before and
after the completion, a STATUS read after it returns the completion code with BUSY = 0; where no other STATUS read stands between
the two, that read is the end of the command the CMD write started; and a command has at most one end. The agenda and `readData`
are the model's own (Log 2, 3). -/
def Obligations.PollingSeesTheCompletion : Prop :=
  (∀ (s t : State) (before after : List Access) (rest : List Event), s.Inv → s.busy = true →
    s.agenda = before.map .host ++ .completion :: (after.map .host ++ .host (.read 8 (s.params.base + 0x008)) :: rest) →
    (∀ v, Access.write 8 (s.params.base + 0x000) v ∉ after) →
    Runs (before.length + (after.length + 2)) s t →
    t.readData = some (t.statusCode.setWidth 64) ∧ t.busy = false ∧ t.pending = none ∧ t.statusCode ≠ 0xFE ∧
      t.agenda = rest) ∧
  (∀ (s t : State) (w : Word) (before after : List Access) (rest : List Event), s.busy = false →
    s.agenda = .host (.write 8 (s.params.base + 0x000) w) :: (before.map .host ++
      .completion :: (after.map .host ++ .host (.read 8 (s.params.base + 0x008)) :: rest)) →
    (∀ v, Access.write 8 (s.params.base + 0x000) v ∉ after) → Access.read 8 (s.params.base + 0x008) ∉ after →
    Runs (before.length + (after.length + 3)) s t →
    CommandEnds w s (before.length + (after.length + 2)) t) ∧
  (∀ (w : Word) (s t u : State) (n m : Nat), CommandEnds w s n t → CommandEnds w s m u → n = m ∧ t = u)

/-- 30_encoding.md R85 and R86: the bus access of each primitive line of the host notation, with literal operands, and the
accesses the lines of WBS and RBS are. -/
def Obligations.HostLinesAreBusAccesses : Prop :=
  ∀ (p : Params) (vars : HostVars) (r : Reg) (h : String) (i n b : Nat), n < 2 ^ 64 → b < 256 →
    lineAccess p vars (.write r (.lit n)) = some (.write 8 (p.base + regOffset r) (BitVec.ofNat 64 n)) ∧
    lineAccess p vars (.read h r) = some (.read 8 (p.base + regOffset r)) ∧
    lineAccess p vars (.writeIn (.lit i) (.lit b)) = some (.write 1 (p.base + 0x10000 + i) (BitVec.ofNat 64 b)) ∧
    lineAccess p vars (.writeOut (.lit i) (.lit b)) = some (.write 1 (p.base + 0x20000 + i) (BitVec.ofNat 64 b)) ∧
    lineAccess p vars (.readIn h (.lit i)) = some (.read 1 (p.base + 0x10000 + i)) ∧
    lineAccess p vars (.readOut h (.lit i)) = some (.read 1 (p.base + 0x20000 + i)) ∧
    (∀ e c l, lineAccess p vars (.assign h e) = none ∧ lineAccess p vars (.ifGoto c l) = none ∧
      lineAccess p vars (.label l) = none) ∧
    (∀ bs : List Byte, (wbsInLines (.lit i) (bs.map fun x => .lit x.toNat)).map (lineAccess p vars) =
      bs.mapIdx fun k x => some (.write 1 (p.base + 0x10000 + (i + k)) (x.setWidth 64))) ∧
    (∀ bs : List Byte, (wbsOutLines (.lit i) (bs.map fun x => .lit x.toNat)).map (lineAccess p vars) =
      bs.mapIdx fun k x => some (.write 1 (p.base + 0x20000 + (i + k)) (x.setWidth 64))) ∧
    (rbsOutLines h (.lit i) n).map (lineAccess p vars) =
      (List.range n).map (fun k => some (.read 1 (p.base + 0x20000 + (i + k)))) ++ [none]

/-- 30_encoding.md R86: WAIT, run by the host line by line. With BUSY = 0 the three lines end, with STATUS in the host
variable; with BUSY = 1 they are back at the label. The interpreter is the model's own (Log 12). -/
def Obligations.WaitLoopsWhileBusy : Prop :=
  ∀ (s : State) (l t : String) (vars : HostVars),
    ∃ h1 h2 h3 s1,
      runHostLine { program := waitLines l t, line := 0, vars := vars } s = .next (h1, s) ∧
      runHostLine h1 s = .next (h2, s1) ∧ runHostLine h2 s1 = .next (h3, s1) ∧
      s1 = { s with readData := s1.readData } ∧
      hostVar h3.vars t = some (.num (s.statusCode.toNat + if s.busy then 256 else 0)) ∧
      h3.line = (if s.busy then 0 else 3)
end

