-- ==== Sys2Proof/Laws/State.lean ====
section
/-! SUPPORT. One lemma per field per named update of State, each true by rfl, so that no later proof unfolds a record update. -/

namespace Sys2Proof.Machine

@[simp] theorem complete_eq_finish (r : Results) (s : State) : complete r s = finish .ok r s := rfl
@[simp] theorem raise_eq_finish (c : Code) (s : State) : raise c s = finish c {} s := rfl


/-! `storeOut` -/

@[simp] theorem storeOut_params (a : Nat) (bs : List Byte) (s : State) : (storeOut a bs s).params = s.params := rfl
@[simp] theorem storeOut_cmd (a : Nat) (bs : List Byte) (s : State) : (storeOut a bs s).cmd = s.cmd := rfl
@[simp] theorem storeOut_statusCode (a : Nat) (bs : List Byte) (s : State) : (storeOut a bs s).statusCode = s.statusCode := rfl
@[simp] theorem storeOut_busy (a : Nat) (bs : List Byte) (s : State) : (storeOut a bs s).busy = s.busy := rfl
@[simp] theorem storeOut_pending (a : Nat) (bs : List Byte) (s : State) : (storeOut a bs s).pending = s.pending := rfl
@[simp] theorem storeOut_valueIn (a : Nat) (bs : List Byte) (s : State) : (storeOut a bs s).valueIn = s.valueIn := rfl
@[simp] theorem storeOut_tyIn (a : Nat) (bs : List Byte) (s : State) : (storeOut a bs s).tyIn = s.tyIn := rfl
@[simp] theorem storeOut_lenIn (a : Nat) (bs : List Byte) (s : State) : (storeOut a bs s).lenIn = s.lenIn := rfl
@[simp] theorem storeOut_inOff (a : Nat) (bs : List Byte) (s : State) : (storeOut a bs s).inOff = s.inOff := rfl
@[simp] theorem storeOut_inLen (a : Nat) (bs : List Byte) (s : State) : (storeOut a bs s).inLen = s.inLen := rfl
@[simp] theorem storeOut_outOff (a : Nat) (bs : List Byte) (s : State) : (storeOut a bs s).outOff = s.outOff := rfl
@[simp] theorem storeOut_outCap (a : Nat) (bs : List Byte) (s : State) : (storeOut a bs s).outCap = s.outCap := rfl
@[simp] theorem storeOut_resValue (a : Nat) (bs : List Byte) (s : State) : (storeOut a bs s).resValue = s.resValue := rfl
@[simp] theorem storeOut_resTy (a : Nat) (bs : List Byte) (s : State) : (storeOut a bs s).resTy = s.resTy := rfl
@[simp] theorem storeOut_resLen (a : Nat) (bs : List Byte) (s : State) : (storeOut a bs s).resLen = s.resLen := rfl
@[simp] theorem storeOut_resCount (a : Nat) (bs : List Byte) (s : State) : (storeOut a bs s).resCount = s.resCount := rfl
@[simp] theorem storeOut_resPayloadOff (a : Nat) (bs : List Byte) (s : State) : (storeOut a bs s).resPayloadOff = s.resPayloadOff := rfl
@[simp] theorem storeOut_resPayloadLen (a : Nat) (bs : List Byte) (s : State) : (storeOut a bs s).resPayloadLen = s.resPayloadLen := rfl
@[simp] theorem storeOut_inBuf (a : Nat) (bs : List Byte) (s : State) : (storeOut a bs s).inBuf = s.inBuf := rfl
@[simp] theorem storeOut_outBuf (a : Nat) (bs : List Byte) (s : State) : (storeOut a bs s).outBuf = memWrite s.outBuf a bs := rfl
@[simp] theorem storeOut_agenda (a : Nat) (bs : List Byte) (s : State) : (storeOut a bs s).agenda = s.agenda := rfl
@[simp] theorem storeOut_readData (a : Nat) (bs : List Byte) (s : State) : (storeOut a bs s).readData = s.readData := rfl
@[simp] theorem storeOut_draws (a : Nat) (bs : List Byte) (s : State) : (storeOut a bs s).draws = s.draws := rfl

/-! `startCommand` -/

@[simp] theorem startCommand_params (w : Word) (s : State) : (startCommand w s).params = s.params := rfl
@[simp] theorem startCommand_cmd (w : Word) (s : State) : (startCommand w s).cmd = w := rfl
@[simp] theorem startCommand_statusCode (w : Word) (s : State) : (startCommand w s).statusCode = codeByte .pending := rfl
@[simp] theorem startCommand_busy (w : Word) (s : State) : (startCommand w s).busy = true := rfl
@[simp] theorem startCommand_pending (w : Word) (s : State) : (startCommand w s).pending = some w := rfl
@[simp] theorem startCommand_valueIn (w : Word) (s : State) : (startCommand w s).valueIn = s.valueIn := rfl
@[simp] theorem startCommand_tyIn (w : Word) (s : State) : (startCommand w s).tyIn = s.tyIn := rfl
@[simp] theorem startCommand_lenIn (w : Word) (s : State) : (startCommand w s).lenIn = s.lenIn := rfl
@[simp] theorem startCommand_inOff (w : Word) (s : State) : (startCommand w s).inOff = s.inOff := rfl
@[simp] theorem startCommand_inLen (w : Word) (s : State) : (startCommand w s).inLen = s.inLen := rfl
@[simp] theorem startCommand_outOff (w : Word) (s : State) : (startCommand w s).outOff = s.outOff := rfl
@[simp] theorem startCommand_outCap (w : Word) (s : State) : (startCommand w s).outCap = s.outCap := rfl
@[simp] theorem startCommand_resValue (w : Word) (s : State) : (startCommand w s).resValue = s.resValue := rfl
@[simp] theorem startCommand_resTy (w : Word) (s : State) : (startCommand w s).resTy = s.resTy := rfl
@[simp] theorem startCommand_resLen (w : Word) (s : State) : (startCommand w s).resLen = s.resLen := rfl
@[simp] theorem startCommand_resCount (w : Word) (s : State) : (startCommand w s).resCount = s.resCount := rfl
@[simp] theorem startCommand_resPayloadOff (w : Word) (s : State) : (startCommand w s).resPayloadOff = s.resPayloadOff := rfl
@[simp] theorem startCommand_resPayloadLen (w : Word) (s : State) : (startCommand w s).resPayloadLen = s.resPayloadLen := rfl
@[simp] theorem startCommand_inBuf (w : Word) (s : State) : (startCommand w s).inBuf = s.inBuf := rfl
@[simp] theorem startCommand_outBuf (w : Word) (s : State) : (startCommand w s).outBuf = s.outBuf := rfl
@[simp] theorem startCommand_agenda (w : Word) (s : State) : (startCommand w s).agenda = s.agenda := rfl
@[simp] theorem startCommand_readData (w : Word) (s : State) : (startCommand w s).readData = s.readData := rfl
@[simp] theorem startCommand_draws (w : Word) (s : State) : (startCommand w s).draws = s.draws := rfl

/-! `finish` -/

@[simp] theorem finish_params (c : Code) (r : Results) (s : State) : (finish c r s).params = s.params := rfl
@[simp] theorem finish_cmd (c : Code) (r : Results) (s : State) : (finish c r s).cmd = s.cmd := rfl
@[simp] theorem finish_statusCode (c : Code) (r : Results) (s : State) : (finish c r s).statusCode = codeByte c := rfl
@[simp] theorem finish_busy (c : Code) (r : Results) (s : State) : (finish c r s).busy = false := rfl
@[simp] theorem finish_pending (c : Code) (r : Results) (s : State) : (finish c r s).pending = none := rfl
@[simp] theorem finish_valueIn (c : Code) (r : Results) (s : State) : (finish c r s).valueIn = s.valueIn := rfl
@[simp] theorem finish_tyIn (c : Code) (r : Results) (s : State) : (finish c r s).tyIn = s.tyIn := rfl
@[simp] theorem finish_lenIn (c : Code) (r : Results) (s : State) : (finish c r s).lenIn = s.lenIn := rfl
@[simp] theorem finish_inOff (c : Code) (r : Results) (s : State) : (finish c r s).inOff = s.inOff := rfl
@[simp] theorem finish_inLen (c : Code) (r : Results) (s : State) : (finish c r s).inLen = s.inLen := rfl
@[simp] theorem finish_outOff (c : Code) (r : Results) (s : State) : (finish c r s).outOff = s.outOff := rfl
@[simp] theorem finish_outCap (c : Code) (r : Results) (s : State) : (finish c r s).outCap = s.outCap := rfl
@[simp] theorem finish_resValue (c : Code) (r : Results) (s : State) : (finish c r s).resValue = BitVec.ofNat 64 r.value := rfl
@[simp] theorem finish_resTy (c : Code) (r : Results) (s : State) : (finish c r s).resTy = BitVec.ofNat 64 r.ty := rfl
@[simp] theorem finish_resLen (c : Code) (r : Results) (s : State) : (finish c r s).resLen = BitVec.ofNat 64 r.len := rfl
@[simp] theorem finish_resCount (c : Code) (r : Results) (s : State) : (finish c r s).resCount = BitVec.ofNat 64 r.count := rfl
@[simp] theorem finish_resPayloadOff (c : Code) (r : Results) (s : State) : (finish c r s).resPayloadOff = BitVec.ofNat 64 r.payloadOff := rfl
@[simp] theorem finish_resPayloadLen (c : Code) (r : Results) (s : State) : (finish c r s).resPayloadLen = BitVec.ofNat 64 r.payloadLen := rfl
@[simp] theorem finish_inBuf (c : Code) (r : Results) (s : State) : (finish c r s).inBuf = s.inBuf := rfl
@[simp] theorem finish_outBuf (c : Code) (r : Results) (s : State) : (finish c r s).outBuf = s.outBuf := rfl
@[simp] theorem finish_agenda (c : Code) (r : Results) (s : State) : (finish c r s).agenda = s.agenda := rfl
@[simp] theorem finish_readData (c : Code) (r : Results) (s : State) : (finish c r s).readData = s.readData := rfl
@[simp] theorem finish_draws (c : Code) (r : Results) (s : State) : (finish c r s).draws = s.draws := rfl

/-! `answer` -/

@[simp] theorem answer_params (v : Word) (s : State) : (answer v s).params = s.params := rfl
@[simp] theorem answer_cmd (v : Word) (s : State) : (answer v s).cmd = s.cmd := rfl
@[simp] theorem answer_statusCode (v : Word) (s : State) : (answer v s).statusCode = s.statusCode := rfl
@[simp] theorem answer_busy (v : Word) (s : State) : (answer v s).busy = s.busy := rfl
@[simp] theorem answer_pending (v : Word) (s : State) : (answer v s).pending = s.pending := rfl
@[simp] theorem answer_valueIn (v : Word) (s : State) : (answer v s).valueIn = s.valueIn := rfl
@[simp] theorem answer_tyIn (v : Word) (s : State) : (answer v s).tyIn = s.tyIn := rfl
@[simp] theorem answer_lenIn (v : Word) (s : State) : (answer v s).lenIn = s.lenIn := rfl
@[simp] theorem answer_inOff (v : Word) (s : State) : (answer v s).inOff = s.inOff := rfl
@[simp] theorem answer_inLen (v : Word) (s : State) : (answer v s).inLen = s.inLen := rfl
@[simp] theorem answer_outOff (v : Word) (s : State) : (answer v s).outOff = s.outOff := rfl
@[simp] theorem answer_outCap (v : Word) (s : State) : (answer v s).outCap = s.outCap := rfl
@[simp] theorem answer_resValue (v : Word) (s : State) : (answer v s).resValue = s.resValue := rfl
@[simp] theorem answer_resTy (v : Word) (s : State) : (answer v s).resTy = s.resTy := rfl
@[simp] theorem answer_resLen (v : Word) (s : State) : (answer v s).resLen = s.resLen := rfl
@[simp] theorem answer_resCount (v : Word) (s : State) : (answer v s).resCount = s.resCount := rfl
@[simp] theorem answer_resPayloadOff (v : Word) (s : State) : (answer v s).resPayloadOff = s.resPayloadOff := rfl
@[simp] theorem answer_resPayloadLen (v : Word) (s : State) : (answer v s).resPayloadLen = s.resPayloadLen := rfl
@[simp] theorem answer_inBuf (v : Word) (s : State) : (answer v s).inBuf = s.inBuf := rfl
@[simp] theorem answer_outBuf (v : Word) (s : State) : (answer v s).outBuf = s.outBuf := rfl
@[simp] theorem answer_agenda (v : Word) (s : State) : (answer v s).agenda = s.agenda := rfl
@[simp] theorem answer_readData (v : Word) (s : State) : (answer v s).readData = some v := rfl
@[simp] theorem answer_draws (v : Word) (s : State) : (answer v s).draws = s.draws := rfl

/-! `answerAnyWord` -/

@[simp] theorem answerAnyWord_params (s : State) : (answerAnyWord s).params = s.params := rfl
@[simp] theorem answerAnyWord_cmd (s : State) : (answerAnyWord s).cmd = s.cmd := rfl
@[simp] theorem answerAnyWord_statusCode (s : State) : (answerAnyWord s).statusCode = s.statusCode := rfl
@[simp] theorem answerAnyWord_busy (s : State) : (answerAnyWord s).busy = s.busy := rfl
@[simp] theorem answerAnyWord_pending (s : State) : (answerAnyWord s).pending = s.pending := rfl
@[simp] theorem answerAnyWord_valueIn (s : State) : (answerAnyWord s).valueIn = s.valueIn := rfl
@[simp] theorem answerAnyWord_tyIn (s : State) : (answerAnyWord s).tyIn = s.tyIn := rfl
@[simp] theorem answerAnyWord_lenIn (s : State) : (answerAnyWord s).lenIn = s.lenIn := rfl
@[simp] theorem answerAnyWord_inOff (s : State) : (answerAnyWord s).inOff = s.inOff := rfl
@[simp] theorem answerAnyWord_inLen (s : State) : (answerAnyWord s).inLen = s.inLen := rfl
@[simp] theorem answerAnyWord_outOff (s : State) : (answerAnyWord s).outOff = s.outOff := rfl
@[simp] theorem answerAnyWord_outCap (s : State) : (answerAnyWord s).outCap = s.outCap := rfl
@[simp] theorem answerAnyWord_resValue (s : State) : (answerAnyWord s).resValue = s.resValue := rfl
@[simp] theorem answerAnyWord_resTy (s : State) : (answerAnyWord s).resTy = s.resTy := rfl
@[simp] theorem answerAnyWord_resLen (s : State) : (answerAnyWord s).resLen = s.resLen := rfl
@[simp] theorem answerAnyWord_resCount (s : State) : (answerAnyWord s).resCount = s.resCount := rfl
@[simp] theorem answerAnyWord_resPayloadOff (s : State) : (answerAnyWord s).resPayloadOff = s.resPayloadOff := rfl
@[simp] theorem answerAnyWord_resPayloadLen (s : State) : (answerAnyWord s).resPayloadLen = s.resPayloadLen := rfl
@[simp] theorem answerAnyWord_inBuf (s : State) : (answerAnyWord s).inBuf = s.inBuf := rfl
@[simp] theorem answerAnyWord_outBuf (s : State) : (answerAnyWord s).outBuf = s.outBuf := rfl
@[simp] theorem answerAnyWord_agenda (s : State) : (answerAnyWord s).agenda = s.agenda := rfl
@[simp] theorem answerAnyWord_readData (s : State) : (answerAnyWord s).readData = some (Config.freeWord s.draws) := rfl
@[simp] theorem answerAnyWord_draws (s : State) : (answerAnyWord s).draws = s.draws + 1 := rfl

/-! `answerAnyByte` -/

@[simp] theorem answerAnyByte_params (s : State) : (answerAnyByte s).params = s.params := rfl
@[simp] theorem answerAnyByte_cmd (s : State) : (answerAnyByte s).cmd = s.cmd := rfl
@[simp] theorem answerAnyByte_statusCode (s : State) : (answerAnyByte s).statusCode = s.statusCode := rfl
@[simp] theorem answerAnyByte_busy (s : State) : (answerAnyByte s).busy = s.busy := rfl
@[simp] theorem answerAnyByte_pending (s : State) : (answerAnyByte s).pending = s.pending := rfl
@[simp] theorem answerAnyByte_valueIn (s : State) : (answerAnyByte s).valueIn = s.valueIn := rfl
@[simp] theorem answerAnyByte_tyIn (s : State) : (answerAnyByte s).tyIn = s.tyIn := rfl
@[simp] theorem answerAnyByte_lenIn (s : State) : (answerAnyByte s).lenIn = s.lenIn := rfl
@[simp] theorem answerAnyByte_inOff (s : State) : (answerAnyByte s).inOff = s.inOff := rfl
@[simp] theorem answerAnyByte_inLen (s : State) : (answerAnyByte s).inLen = s.inLen := rfl
@[simp] theorem answerAnyByte_outOff (s : State) : (answerAnyByte s).outOff = s.outOff := rfl
@[simp] theorem answerAnyByte_outCap (s : State) : (answerAnyByte s).outCap = s.outCap := rfl
@[simp] theorem answerAnyByte_resValue (s : State) : (answerAnyByte s).resValue = s.resValue := rfl
@[simp] theorem answerAnyByte_resTy (s : State) : (answerAnyByte s).resTy = s.resTy := rfl
@[simp] theorem answerAnyByte_resLen (s : State) : (answerAnyByte s).resLen = s.resLen := rfl
@[simp] theorem answerAnyByte_resCount (s : State) : (answerAnyByte s).resCount = s.resCount := rfl
@[simp] theorem answerAnyByte_resPayloadOff (s : State) : (answerAnyByte s).resPayloadOff = s.resPayloadOff := rfl
@[simp] theorem answerAnyByte_resPayloadLen (s : State) : (answerAnyByte s).resPayloadLen = s.resPayloadLen := rfl
@[simp] theorem answerAnyByte_inBuf (s : State) : (answerAnyByte s).inBuf = s.inBuf := rfl
@[simp] theorem answerAnyByte_outBuf (s : State) : (answerAnyByte s).outBuf = s.outBuf := rfl
@[simp] theorem answerAnyByte_agenda (s : State) : (answerAnyByte s).agenda = s.agenda := rfl
@[simp] theorem answerAnyByte_readData (s : State) : (answerAnyByte s).readData = some ((Config.freeByte s.draws).setWidth 64) := rfl
@[simp] theorem answerAnyByte_draws (s : State) : (answerAnyByte s).draws = s.draws + 1 := rfl

/-! `assertReset` -/

@[simp] theorem assertReset_params (s : State) : (assertReset s).params = s.params := rfl
@[simp] theorem assertReset_cmd (s : State) : (assertReset s).cmd = 0 := rfl
@[simp] theorem assertReset_statusCode (s : State) : (assertReset s).statusCode = codeByte .none := rfl
@[simp] theorem assertReset_busy (s : State) : (assertReset s).busy = false := rfl
@[simp] theorem assertReset_pending (s : State) : (assertReset s).pending = none := rfl
@[simp] theorem assertReset_valueIn (s : State) : (assertReset s).valueIn = 0 := rfl
@[simp] theorem assertReset_tyIn (s : State) : (assertReset s).tyIn = 0 := rfl
@[simp] theorem assertReset_lenIn (s : State) : (assertReset s).lenIn = 0 := rfl
@[simp] theorem assertReset_inOff (s : State) : (assertReset s).inOff = 0 := rfl
@[simp] theorem assertReset_inLen (s : State) : (assertReset s).inLen = 0 := rfl
@[simp] theorem assertReset_outOff (s : State) : (assertReset s).outOff = 0 := rfl
@[simp] theorem assertReset_outCap (s : State) : (assertReset s).outCap = 0 := rfl
@[simp] theorem assertReset_resValue (s : State) : (assertReset s).resValue = 0 := rfl
@[simp] theorem assertReset_resTy (s : State) : (assertReset s).resTy = 0 := rfl
@[simp] theorem assertReset_resLen (s : State) : (assertReset s).resLen = 0 := rfl
@[simp] theorem assertReset_resCount (s : State) : (assertReset s).resCount = 0 := rfl
@[simp] theorem assertReset_resPayloadOff (s : State) : (assertReset s).resPayloadOff = 0 := rfl
@[simp] theorem assertReset_resPayloadLen (s : State) : (assertReset s).resPayloadLen = 0 := rfl
@[simp] theorem assertReset_inBuf (s : State) : (assertReset s).inBuf = [] := rfl
@[simp] theorem assertReset_outBuf (s : State) : (assertReset s).outBuf = [] := rfl
@[simp] theorem assertReset_agenda (s : State) : (assertReset s).agenda = s.agenda := rfl
@[simp] theorem assertReset_readData (s : State) : (assertReset s).readData = s.readData := rfl
@[simp] theorem assertReset_draws (s : State) : (assertReset s).draws = s.draws := rfl

/-! `deliverCommand` -/

@[simp] theorem deliverCommand_params (w : Word) (s : State) : (deliverCommand w s).params = s.params := rfl
@[simp] theorem deliverCommand_cmd (w : Word) (s : State) : (deliverCommand w s).cmd = w := rfl
@[simp] theorem deliverCommand_statusCode (w : Word) (s : State) : (deliverCommand w s).statusCode = codeByte .pending := rfl
@[simp] theorem deliverCommand_busy (w : Word) (s : State) : (deliverCommand w s).busy = true := rfl
@[simp] theorem deliverCommand_pending (w : Word) (s : State) : (deliverCommand w s).pending = some w := rfl
@[simp] theorem deliverCommand_valueIn (w : Word) (s : State) : (deliverCommand w s).valueIn = s.valueIn := rfl
@[simp] theorem deliverCommand_tyIn (w : Word) (s : State) : (deliverCommand w s).tyIn = s.tyIn := rfl
@[simp] theorem deliverCommand_lenIn (w : Word) (s : State) : (deliverCommand w s).lenIn = s.lenIn := rfl
@[simp] theorem deliverCommand_inOff (w : Word) (s : State) : (deliverCommand w s).inOff = s.inOff := rfl
@[simp] theorem deliverCommand_inLen (w : Word) (s : State) : (deliverCommand w s).inLen = s.inLen := rfl
@[simp] theorem deliverCommand_outOff (w : Word) (s : State) : (deliverCommand w s).outOff = s.outOff := rfl
@[simp] theorem deliverCommand_outCap (w : Word) (s : State) : (deliverCommand w s).outCap = s.outCap := rfl
@[simp] theorem deliverCommand_resValue (w : Word) (s : State) : (deliverCommand w s).resValue = s.resValue := rfl
@[simp] theorem deliverCommand_resTy (w : Word) (s : State) : (deliverCommand w s).resTy = s.resTy := rfl
@[simp] theorem deliverCommand_resLen (w : Word) (s : State) : (deliverCommand w s).resLen = s.resLen := rfl
@[simp] theorem deliverCommand_resCount (w : Word) (s : State) : (deliverCommand w s).resCount = s.resCount := rfl
@[simp] theorem deliverCommand_resPayloadOff (w : Word) (s : State) : (deliverCommand w s).resPayloadOff = s.resPayloadOff := rfl
@[simp] theorem deliverCommand_resPayloadLen (w : Word) (s : State) : (deliverCommand w s).resPayloadLen = s.resPayloadLen := rfl
@[simp] theorem deliverCommand_inBuf (w : Word) (s : State) : (deliverCommand w s).inBuf = s.inBuf := rfl
@[simp] theorem deliverCommand_outBuf (w : Word) (s : State) : (deliverCommand w s).outBuf = s.outBuf := rfl
@[simp] theorem deliverCommand_agenda (w : Word) (s : State) : (deliverCommand w s).agenda = .completion :: s.agenda := rfl
@[simp] theorem deliverCommand_readData (w : Word) (s : State) : (deliverCommand w s).readData = s.readData := rfl
@[simp] theorem deliverCommand_draws (w : Word) (s : State) : (deliverCommand w s).draws = s.draws := rfl

/-! `State.reset` -/

@[simp] theorem State.reset_params : State.reset.params = Config.params := rfl
@[simp] theorem State.reset_cmd : State.reset.cmd = 0 := rfl
@[simp] theorem State.reset_statusCode : State.reset.statusCode = codeByte .none := rfl
@[simp] theorem State.reset_busy : State.reset.busy = false := rfl
@[simp] theorem State.reset_pending : State.reset.pending = none := rfl
@[simp] theorem State.reset_valueIn : State.reset.valueIn = 0 := rfl
@[simp] theorem State.reset_tyIn : State.reset.tyIn = 0 := rfl
@[simp] theorem State.reset_lenIn : State.reset.lenIn = 0 := rfl
@[simp] theorem State.reset_inOff : State.reset.inOff = 0 := rfl
@[simp] theorem State.reset_inLen : State.reset.inLen = 0 := rfl
@[simp] theorem State.reset_outOff : State.reset.outOff = 0 := rfl
@[simp] theorem State.reset_outCap : State.reset.outCap = 0 := rfl
@[simp] theorem State.reset_resValue : State.reset.resValue = 0 := rfl
@[simp] theorem State.reset_resTy : State.reset.resTy = 0 := rfl
@[simp] theorem State.reset_resLen : State.reset.resLen = 0 := rfl
@[simp] theorem State.reset_resCount : State.reset.resCount = 0 := rfl
@[simp] theorem State.reset_resPayloadOff : State.reset.resPayloadOff = 0 := rfl
@[simp] theorem State.reset_resPayloadLen : State.reset.resPayloadLen = 0 := rfl
@[simp] theorem State.reset_inBuf : State.reset.inBuf = [] := rfl
@[simp] theorem State.reset_outBuf : State.reset.outBuf = [] := rfl
@[simp] theorem State.reset_agenda : State.reset.agenda = [] := rfl
@[simp] theorem State.reset_readData : State.reset.readData = none := rfl
@[simp] theorem State.reset_draws : State.reset.draws = 0 := rfl

end Sys2Proof.Machine
end

