-- ==== Sys2Proof/Laws/Bus.lean ====
section
/-! SUPPORT. Laws of host accesses: where an access lands, and everything a read and a write can do. -/

namespace Sys2Proof.Machine

/-- Each register is found at its offset. -/
@[simp] theorem regAt_regOffset (r : Reg) : regAt (regOffset r) = some r := by
  cases r <;> decide

theorem regOffset_lt (r : Reg) : regOffset r < 0x078 := by
  cases r <;> decide

theorem regOffset_aligned (r : Reg) : regOffset r % 8 = 0 := by
  cases r <;> decide

theorem regAt_some {off : Nat} {r : Reg} (h : regAt off = some r) : regOffset r = off := by
  have := List.find?_some h
  simpa using this

theorem regAt_none {off : Nat} (h : 0x078 ≤ off) : regAt off = none := by
  cases h' : regAt off with
  | none => rfl
  | some r => have := regAt_some h'; have := regOffset_lt r; omega

/-- A 64-bit access at a register's address reaches that register. -/
@[simp] theorem locate_reg (p : Params) (r : Reg) : locate p 8 (p.base + regOffset r) = .ok (.reg r) := by
  have h1 := regOffset_lt r
  have h2 := regOffset_aligned r
  rw [locate, if_pos (by omega), Nat.add_sub_cancel_left, locateOffset, if_pos (by omega), if_pos ⟨rfl, h2⟩]
  simp

/-- R3's conditions, one by one. -/
theorem Params.wf_iff (p : Params) : p.wf = true ↔
    p.base % 2 ^ 18 = 0 ∧ 16 ≤ p.inMax ∧ p.inMax ≤ 65536 ∧ 16 ≤ p.outMax ∧ p.outMax ≤ 65536 := by
  simp [Params.wf, and_assoc]

/-- The open parameters of `State.reset` are legal, whatever the open constants are (R3). -/
theorem Config.params_wf : Config.params.wf = true := by
  have h1 : Config.params.base = Config.baseFrame * 2 ^ 18 := rfl
  have h2 : Config.params.inMax = Config.inSize % 65521 + 16 := rfl
  have h3 : Config.params.outMax = Config.outSize % 65521 + 16 := rfl
  rw [Params.wf_iff, h1, h2, h3]
  omega

/-- A byte access at an IN byte's address reaches that byte. -/
theorem locate_inByte {p : Params} {i : Nat} (hp : p.wf = true) (h : i < p.inMax) :
    locate p 1 (p.base + 0x10000 + i) = .ok (.inByte i) := by
  have hw := (Params.wf_iff p).1 hp
  have e : p.base + 0x10000 + i - p.base - 0x10000 = i := by omega
  rw [locate, if_pos (by omega), locateOffset, if_neg (by omega), if_pos (by simp [touches]; omega), if_pos rfl, e]

/-- A byte access at an OUT byte's address reaches that byte. -/
theorem locate_outByte {p : Params} {j : Nat} (hp : p.wf = true) (h : j < p.outMax) :
    locate p 1 (p.base + 0x20000 + j) = .ok (.outByte j) := by
  have hw := (Params.wf_iff p).1 hp
  have e : p.base + 0x20000 + j - p.base - 0x20000 = j := by omega
  rw [locate, if_pos (by omega), locateOffset, if_neg (by omega), if_neg (by simp [touches]; omega),
    if_pos (by simp [touches]; omega), if_pos rfl, e]

/-- An access that touches neither the register area nor a buffer byte reaches a reserved offset. -/
theorem locate_reserved {p : Params} {n off : Nat} (h1 : 0x1000 ≤ off) (h2 : off + (n - 1) < 0x30000)
    (h3 : touches off (off + (n - 1)) 0x10000 p.inMax = false)
    (h4 : touches off (off + (n - 1)) 0x20000 p.outMax = false) : locate p n (p.base + off) = .ok .reserved := by
  rw [locate, if_pos (by omega), Nat.add_sub_cancel_left, locateOffset, if_neg (by omega), if_neg (by simp [h3]),
    if_neg (by simp [h4])]

/-- A register access at a reserved offset of the register area reaches a reserved offset. -/
theorem locate_reservedReg {p : Params} {off : Nat} (h1 : 0x078 ≤ off) (h2 : off < 0x1000) (h3 : off % 8 = 0) :
    locate p 8 (p.base + off) = .ok .reserved := by
  rw [locate, if_pos (by omega), Nat.add_sub_cancel_left, locateOffset, if_pos (by omega), if_pos ⟨rfl, h3⟩,
    regAt_none h1]

/-- An access that reaches a register is 64-bit and at that register's address. -/
theorem locate_eq_reg {p : Params} {bytes addr : Nat} {r : Reg} (h : locate p bytes addr = .ok (.reg r)) :
    bytes = 8 ∧ addr = p.base + regOffset r := by
  unfold locate at h
  split at h
  · next hb =>
    unfold locateOffset at h
    split at h
    · split at h
      · next h8 =>
        cases hr : regAt (addr - p.base) with
        | none => rw [hr] at h; cases h
        | some r' =>
          rw [hr] at h
          cases h
          exact ⟨h8.1, by rw [regAt_some hr]; omega⟩
      · cases h
    · split at h
      · split at h <;> cases h
      · split at h
        · split at h <;> cases h
        · cases h
  · cases h

/-- An access that reaches an IN byte is byte-wide, at that byte's address, and the byte lies in IN. -/
theorem locate_eq_inByte {p : Params} {bytes addr i : Nat} (h : locate p bytes addr = .ok (.inByte i)) :
    bytes = 1 ∧ addr = p.base + 0x10000 + i ∧ i < p.inMax := by
  unfold locate at h
  split at h
  · next hb =>
    unfold locateOffset at h
    split at h
    · split at h
      · cases hr : regAt (addr - p.base) <;> rw [hr] at h <;> cases h
      · cases h
    · split at h
      · next ht =>
        split at h
        · next h1 =>
          simp only [Except.ok.injEq, Target.inByte.injEq] at h
          simp only [touches, Bool.and_eq_true, decide_eq_true_eq] at ht
          subst h1
          exact ⟨rfl, by omega, by omega⟩
        · cases h
      · split at h
        · split at h <;> cases h
        · cases h
  · cases h

/-- An access that reaches an OUT byte is byte-wide, at that byte's address, and the byte lies in OUT. -/
theorem locate_eq_outByte {p : Params} {bytes addr j : Nat} (h : locate p bytes addr = .ok (.outByte j)) :
    bytes = 1 ∧ addr = p.base + 0x20000 + j ∧ j < p.outMax := by
  unfold locate at h
  split at h
  · next hb =>
    unfold locateOffset at h
    split at h
    · split at h
      · cases hr : regAt (addr - p.base) <;> rw [hr] at h <;> cases h
      · cases h
    · split at h
      · split at h <;> cases h
      · split at h
        · next ht =>
          split at h
          · next h1 =>
            simp only [Except.ok.injEq, Target.outByte.injEq] at h
            simp only [touches, Bool.and_eq_true, decide_eq_true_eq] at ht
            subst h1
            exact ⟨rfl, by omega, by omega⟩
          · cases h
        · cases h
  · cases h

/-- A host read changes at most what the host has read and the count of free draws. -/
theorem hostRead_keeps (t : Target) (s : State) :
    ∃ d k, hostRead t s = { s with readData := d, draws := k } := by
  have hb : ∀ b, ∃ d k, answerByte b s = { s with readData := d, draws := k } := by
    intro b
    cases b
    · exact ⟨_, _, rfl⟩
    · exact ⟨_, s.draws, rfl⟩
  cases t with
  | reserved => exact ⟨_, s.draws, rfl⟩
  | reg r =>
    simp only [hostRead]
    split
    · exact ⟨_, _, rfl⟩
    · exact ⟨_, s.draws, rfl⟩
  | inByte i => exact hb _
  | outByte j =>
    simp only [hostRead]
    split
    · exact ⟨_, _, rfl⟩
    · exact hb _

/-- Everything a host write can do. -/
theorem hostWrite_cases (t : Target) (v : Word) (s : State) :
    (hostWrite t v s = .next s) ∨
    (s.busy = true ∧ hostWrite t v s = .fault .hazardWriteWhileBusy) ∨
    (s.busy = false ∧ ∃ r, t = .reg r ∧ isWritable r = true ∧ hostWrite t v s = .next (writeReg r v s)) ∨
    (s.busy = false ∧ ∃ i, t = .inByte i ∧
      hostWrite t v s = .next { s with inBuf := s.inBuf.write i (v.setWidth 8) }) ∨
    (s.busy = false ∧ ∃ j, t = .outByte j ∧
      hostWrite t v s = .next { s with outBuf := s.outBuf.write j (v.setWidth 8) }) := by
  cases t with
  | reserved => exact .inl rfl
  | reg r =>
    cases hw : isWritable r with
    | false => exact .inl (by simp [hostWrite, hw])
    | true =>
      cases hb : s.busy with
      | true => exact .inr (.inl ⟨rfl, by simp [hostWrite, hw, hb]⟩)
      | false => exact .inr (.inr (.inl ⟨rfl, r, rfl, hw, by simp [hostWrite, hw, hb]⟩))
  | inByte i =>
    cases hb : s.busy with
    | true => exact .inr (.inl ⟨rfl, by simp [hostWrite, hb]⟩)
    | false => exact .inr (.inr (.inr (.inl ⟨rfl, i, rfl, by simp [hostWrite, hb]⟩)))
  | outByte j =>
    cases hb : s.busy with
    | true => exact .inr (.inl ⟨rfl, by simp [hostWrite, hb]⟩)
    | false => exact .inr (.inr (.inr (.inr ⟨rfl, j, rfl, by simp [hostWrite, hb]⟩)))

/-- Everything a host access that answers a next state can do. -/
theorem hostAccess_next {a : Access} {s t : State} (h : hostAccess a s = .next t) :
    (∃ bytes addr d k, a = .read bytes addr ∧ t = { s with readData := d, draws := k }) ∨
    (∃ bytes addr v, a = .write bytes addr v ∧
      (t = s ∨
       (s.busy = false ∧ ∃ r, bytes = 8 ∧ addr = s.params.base + regOffset r ∧ isWritable r = true ∧
          t = writeReg r v s) ∨
       (s.busy = false ∧ ∃ i, bytes = 1 ∧ addr = s.params.base + 0x10000 + i ∧ i < s.params.inMax ∧
          t = { s with inBuf := s.inBuf.write i (v.setWidth 8) }) ∨
       (s.busy = false ∧ ∃ j, bytes = 1 ∧ addr = s.params.base + 0x20000 + j ∧ j < s.params.outMax ∧
          t = { s with outBuf := s.outBuf.write j (v.setWidth 8) }))) := by
  cases a with
  | read bytes addr =>
    simp only [hostAccess] at h
    split at h
    · cases h
    · next tgt _ =>
      cases h
      obtain ⟨d, k, hk⟩ := hostRead_keeps tgt s
      exact .inl ⟨bytes, addr, d, k, rfl, hk⟩
  | write bytes addr v =>
    refine .inr ⟨bytes, addr, v, rfl, ?_⟩
    simp only [hostAccess] at h
    split at h
    · cases h
    · next tgt hl =>
      rcases hostWrite_cases tgt v s with hc | ⟨-, hc⟩ | ⟨hb, r, rfl, hw, hc⟩ | ⟨hb, i, rfl, hc⟩ | ⟨hb, j, rfl, hc⟩
      · rw [hc] at h; cases h; exact .inl rfl
      · rw [hc] at h; cases h
      · rw [hc] at h; cases h
        obtain ⟨h1, h2⟩ := locate_eq_reg hl
        exact .inr (.inl ⟨hb, r, h1, h2, hw, rfl⟩)
      · rw [hc] at h; cases h
        obtain ⟨h1, h2, h3⟩ := locate_eq_inByte hl
        exact .inr (.inr (.inl ⟨hb, i, h1, h2, h3, rfl⟩))
      · rw [hc] at h; cases h
        obtain ⟨h1, h2, h3⟩ := locate_eq_outByte hl
        exact .inr (.inr (.inr ⟨hb, j, h1, h2, h3, rfl⟩))

end Sys2Proof.Machine
end

