-- ==== Sys2Proof/Laws/Codec.lean ====
section
/-! SUPPORT. Laws of the pure codec functions: tags, lengths, big-endian numbers, and what a successful decode says. -/

namespace Sys2Proof.Machine

/-! ### Tags and tiers -/

theorem tagField_toNat (b : Byte) : (tagField b).toNat = b.toNat / 64 := by
  have := b.isLt
  simp [tagField, Nat.shiftRight_eq_div_pow]
  omega

theorem topValueField_toNat (b : Byte) : (topValueField b).toNat = b.toNat % 64 := by
  simp [topValueField]

/-- The tag is a 2-bit field, so the InvalidEncoding arm of `lenOfTag` is never reached from one (R74). -/
@[simp] theorem lenOfTag_tagField (b : Byte) : lenOfTag (tagField b).toNat = some (2 ^ (tagField b).toNat) := by
  have := (tagField b).isLt
  generalize (tagField b).toNat = t at *
  match t, this with
  | 0, _ => rfl
  | 1, _ => rfl
  | 2, _ => rfl
  | 3, _ => rfl

theorem tagLength_cases (b : Byte) :
    2 ^ (tagField b).toNat = 1 ∨ 2 ^ (tagField b).toNat = 2 ∨ 2 ^ (tagField b).toNat = 4 ∨
      2 ^ (tagField b).toNat = 8 := by
  have := (tagField b).isLt
  generalize (tagField b).toNat = t at *
  match t, this with
  | 0, _ => exact .inl rfl
  | 1, _ => exact .inr (.inl rfl)
  | 2, _ => exact .inr (.inr (.inl rfl))
  | 3, _ => exact .inr (.inr (.inr rfl))

theorem tier_cases (v : Nat) : tier v = 1 ∨ tier v = 2 ∨ tier v = 4 ∨ tier v = 8 := by
  simp only [tier]; split <;> [simp; split <;> [simp; split <;> simp]]

/-- A value of the domain fits the value bits of its tier (R73, R77). -/
theorem lt_of_tier {v : Nat} (h : v ≤ max62) : v < 2 ^ (8 * tier v - 2) := by
  simp only [max62] at h
  simp only [tier]
  split
  · omega
  · split
    · omega
    · split <;> omega

/-! ### Big-endian numbers -/

@[simp] theorem bytesOf_length (w L : Nat) : (bytesOf w L).length = L := by
  induction L with
  | zero => rfl
  | succ L ih => simp [bytesOf, ih]

@[simp] theorem varintBytesAt_length (v L : Nat) : (varintBytesAt v L).length = L := bytesOf_length _ _

@[simp] theorem varintBytes_length (v : Nat) : (varintBytes v).length = tier v := bytesOf_length _ _

theorem assembleValue_cons (x : Nat) (b : Byte) (l : List Byte) :
    assembleValue x (b :: l) = assembleValue (x * 256 + b.toNat) l := rfl

theorem assembleValue_eq (x : Nat) (l : List Byte) : assembleValue x l = x * 256 ^ l.length + valueOf l := by
  have key : ∀ (l : List Byte) (x : Nat), assembleValue x l = x * 256 ^ l.length + assembleValue 0 l := by
    intro l
    induction l with
    | nil => intro x; simp [assembleValue]
    | cons b l ih =>
      intro x
      rw [assembleValue_cons, assembleValue_cons, ih, ih (0 * 256 + b.toNat), List.length_cons]
      ring
  exact key l x

theorem valueOf_cons (b : Byte) (l : List Byte) : valueOf (b :: l) = b.toNat * 256 ^ l.length + valueOf l := by
  have := assembleValue_eq b.toNat l
  simpa [valueOf, assembleValue] using this

theorem valueOf_lt (l : List Byte) : valueOf l < 256 ^ l.length := by
  induction l with
  | nil => simp [valueOf]
  | cons b l ih =>
    have hb := b.isLt
    rw [valueOf_cons, List.length_cons, Nat.pow_succ]
    nlinarith [Nat.pos_of_ne_zero (pow_ne_zero l.length (by decide : (256 : Nat) ≠ 0))]

theorem valueOf_bytesOf (w L : Nat) : valueOf (bytesOf w L) = w % 256 ^ L := by
  induction L with
  | zero => simp [bytesOf, valueOf, Nat.mod_one]
  | succ L ih =>
    have key : w % 256 ^ (L + 1) = w % 256 ^ L + 256 ^ L * (w / 256 ^ L % 256) := Nat.mod_mul
    rw [bytesOf, valueOf_cons, bytesOf_length, ih, BitVec.toNat_ofNat, key]
    ring

/-! ### The varint decoder -/

@[simp] theorem varintDecode_nil : varintDecode [] = .error .bufferTooSmall := rfl

/-- The decoder by cases on the length alone: the tag never gives an invalid length. -/
theorem varintDecode_cons (b : Byte) (rest : List Byte) :
    varintDecode (b :: rest) =
      if rest.length + 1 < 2 ^ (tagField b).toNat then .error .bufferTooSmall
      else .ok (assembleValue (topValueField b).toNat (rest.take (2 ^ (tagField b).toNat - 1)),
        2 ^ (tagField b).toNat) := by
  simp [varintDecode]

/-- What a successful decode says of its input: the tag's length, which the input holds, and the value. -/
theorem varintDecode_ok {s : List Byte} {v L : Nat} (h : varintDecode s = .ok (v, L)) :
    ∃ b rest, s = b :: rest ∧ L = 2 ^ (tagField b).toNat ∧ L ≤ s.length ∧
      v = assembleValue (topValueField b).toNat (rest.take (L - 1)) := by
  match s, h with
  | b :: rest, h =>
    rw [varintDecode_cons] at h
    split at h
    · cases h
    · next hl => cases h; exact ⟨b, rest, rfl, rfl, by simp; omega, rfl⟩

/-- A failed decode fails BufferTooSmall. -/
theorem varintDecode_error {s : List Byte} {e : VarIntError} (h : varintDecode s = .error e) : e = .bufferTooSmall := by
  match s, h with
  | [], h => cases h; rfl
  | b :: rest, h =>
    rw [varintDecode_cons] at h
    split at h <;> cases h
    rfl

theorem varintDecode_ok_length {s : List Byte} {v L : Nat} (h : varintDecode s = .ok (v, L)) :
    L = 1 ∨ L = 2 ∨ L = 4 ∨ L = 8 := by
  obtain ⟨b, _, _, rfl, _⟩ := varintDecode_ok h
  exact tagLength_cases b

/-- The decoder looks only at the bytes of its varint: two inputs that agree on them decode alike. -/
theorem varintDecode_of_prefix {s u : List Byte} {v L : Nat} (h : varintDecode s = .ok (v, L))
    (hp : s.take L <+: u) : varintDecode u = .ok (v, L) := by
  obtain ⟨b, rest, rfl, hL, hlen, rfl⟩ := varintDecode_ok h
  have hpos : 0 < L := hL ▸ Nat.two_pow_pos _
  obtain ⟨t, rfl⟩ := hp
  obtain ⟨n, rfl⟩ : ∃ n, L = n + 1 := ⟨L - 1, by omega⟩
  simp only [List.take_succ_cons, List.cons_append, Nat.add_sub_cancel, List.length_cons] at *
  rw [varintDecode_cons, ← hL, if_neg (by simp; omega)]
  simp only [Nat.add_sub_cancel]
  rw [List.take_append_of_le_length (by simp; omega), List.take_take, Nat.min_self]

/-! ### The header functions -/

@[simp] theorem wrapVarint_ok {α : Type} (x : α) : wrapVarint (.ok x) = .ok x := rfl
@[simp] theorem wrapVarint_error {α : Type} (e : VarIntError) :
    wrapVarint (.error e : Except VarIntError α) = .error (.varint e) := rfl

/-- The header decoder by cases on its two varint decodes. -/
theorem frameHeaderDecode_ok {s : List Byte} {h : FrameHeader} {n : Nat} (hd : frameHeaderDecode s = .ok (h, n)) :
    ∃ a b, varintDecode s = .ok (h.ty, a) ∧ varintDecode (s.drop a) = .ok (h.len, b) ∧ n = a + b := by
  unfold frameHeaderDecode at hd
  cases h1 : varintDecode s with
  | error e => rw [h1] at hd; cases hd
  | ok p =>
    obtain ⟨ty, a⟩ := p
    rw [h1] at hd
    simp only [wrapVarint_ok] at hd
    cases h2 : varintDecode (s.drop a) with
    | error e => rw [h2] at hd; cases hd
    | ok q =>
      obtain ⟨len, b⟩ := q
      rw [h2] at hd
      cases hd
      exact ⟨a, b, rfl, h2, rfl⟩

theorem frameHeaderDecode_of_ok {s : List Byte} {ty a len b : Nat} (h1 : varintDecode s = .ok (ty, a))
    (h2 : varintDecode (s.drop a) = .ok (len, b)) : frameHeaderDecode s = .ok ({ ty := ty, len := len }, a + b) := by
  simp [frameHeaderDecode, h1, h2]

/-- A header decode fails with a wrapped varint error, of the first varint or of the second. -/
theorem frameHeaderDecode_error {s : List Byte} {e : FrameError} (h : frameHeaderDecode s = .error e) :
    ∃ e', e = .varint e' ∧ (varintDecode s = .error e' ∨
      ∃ ty a, varintDecode s = .ok (ty, a) ∧ varintDecode (s.drop a) = .error e') := by
  unfold frameHeaderDecode at h
  cases h1 : varintDecode s with
  | error e1 => rw [h1] at h; cases h; exact ⟨e1, rfl, .inl rfl⟩
  | ok p =>
    obtain ⟨ty, a⟩ := p
    rw [h1] at h
    simp only [wrapVarint_ok] at h
    cases h2 : varintDecode (s.drop a) with
    | error e2 => rw [h2] at h; cases h; exact ⟨e2, rfl, .inr ⟨ty, a, rfl, h2⟩⟩
    | ok q => rw [h2] at h; cases h

end Sys2Proof.Machine
end

