-- ==== Sys2Proof/Laws/Memory.lean ====
section
/-! SUPPORT. Buffer laws: read after write, the canonical form, and the multi-byte reads and writes. -/

namespace Sys2Proof.Machine

@[simp] theorem Memory.read_nil (a : Nat) : Memory.read [] a = none := rfl

theorem Memory.read_cons (k : Nat) (b : Byte) (m : Memory) (a : Nat) :
    Memory.read ((k, b) :: m) a = if k = a then some b else Memory.read m a := rfl

@[simp] theorem Memory.read_write (m : Memory) (a : Nat) (b : Byte) (j : Nat) :
    (m.write a b).read j = if j = a then some b else m.read j := by
  induction m with
  | nil => simp [Memory.write, Memory.read_cons, eq_comm]
  | cons p m ih =>
    obtain ⟨k, c⟩ := p
    simp only [Memory.write]
    split
    · simp [Memory.read_cons, eq_comm]
    · split
      · next h => subst h; by_cases hj : j = a <;> simp [Memory.read_cons, hj, Ne.symm]
      · next h1 h2 =>
        simp only [Memory.read_cons, ih]
        by_cases hk : k = j
        · subst hk; simp [Ne.symm h2]
        · simp [hk]

theorem Memory.mem_write {m : Memory} {a : Nat} {b : Byte} {p : Host.Cell} (h : p ∈ m.write a b) :
    p = (a, b) ∨ p ∈ m := by
  induction m with
  | nil => simpa [Memory.write] using h
  | cons q m ih =>
    obtain ⟨k, c⟩ := q
    simp only [Memory.write] at h
    split at h
    · simpa using h
    · split at h
      · rcases List.mem_cons.1 h with h | h
        · exact .inl h
        · exact .inr (List.mem_cons_of_mem _ h)
      · rcases List.mem_cons.1 h with h | h
        · exact .inr (h ▸ List.mem_cons_self)
        · exact (ih h).imp id (List.mem_cons_of_mem _)

/-- A byte write keeps the canonical form. -/
theorem Memory.wf_write {m : Memory} (h : m.wf) (a : Nat) (b : Byte) : (m.write a b).wf := by
  induction m with
  | nil => simp [Memory.write]
  | cons q m ih =>
    obtain ⟨k, c⟩ := q
    have hk := List.pairwise_cons.1 h
    simp only [Memory.write]
    split
    · next hlt =>
      refine List.pairwise_cons.2 ⟨fun p hp => ?_, h⟩
      rcases List.mem_cons.1 hp with rfl | hp
      · exact hlt
      · exact Nat.lt_trans hlt (hk.1 p hp)
    · split
      · next h2 => subst h2; exact List.pairwise_cons.2 ⟨fun p hp => hk.1 p hp, hk.2⟩
      · next h1 h2 =>
        refine List.pairwise_cons.2 ⟨fun p hp => ?_, ih hk.2⟩
        rcases Memory.mem_write hp with rfl | hp
        · show k < a; omega
        · exact hk.1 p hp

/-- A byte write at an index of the buffer keeps the buffer's size. -/
theorem Memory.within_write {m : Memory} {n : Nat} (h : m.within n) {a : Nat} (ha : a < n) (b : Byte) :
    (m.write a b).within n := fun p hp => by
  rcases Memory.mem_write hp with rfl | hp
  · exact ha
  · exact h p hp

@[simp] theorem memRead_length (m : Memory) (a n : Nat) : (memRead m a n).length = n := by
  induction n generalizing a with
  | zero => rfl
  | succ n ih => simp [memRead, ih]

theorem memRead_getElem? (m : Memory) (a n k : Nat) :
    (memRead m a n)[k]? = if k < n then some (m.read (a + k)) else none := by
  induction n generalizing a k with
  | zero => simp [memRead]
  | succ n ih =>
    cases k with
    | zero => simp [memRead]
    | succ k => simp [memRead, ih, Nat.add_assoc, Nat.add_comm 1 k]

/-- Buffers that read alike on a range give the same bytes there. -/
theorem memRead_congr {m m' : Memory} {a n : Nat} (h : ∀ k < n, m.read (a + k) = m'.read (a + k)) :
    memRead m a n = memRead m' a n := by
  apply List.ext_getElem?
  intro k
  simp only [memRead_getElem?]
  split
  · next hk => rw [h k hk]
  · rfl

theorem memRead_take (m : Memory) (a n k : Nat) : (memRead m a n).take k = memRead m a (min k n) := by
  apply List.ext_getElem?
  intro j
  simp only [List.getElem?_take, memRead_getElem?]
  split <;> split <;> first | rfl | (split <;> first | rfl | omega) | omega

theorem memRead_drop (m : Memory) (a n k : Nat) : (memRead m a n).drop k = memRead m (a + k) (n - k) := by
  apply List.ext_getElem?
  intro j
  simp only [List.getElem?_drop, memRead_getElem?, Nat.add_assoc]
  split <;> split <;> first | rfl | omega

@[simp] theorem memWrite_nil (m : Memory) (a : Nat) : memWrite m a [] = m := rfl

/-- What a multi-byte write leaves: its bytes at its indices, every other byte as it was. -/
theorem read_memWrite (bs : List Byte) (m : Memory) (a j : Nat) :
    (memWrite m a bs).read j = if a ≤ j ∧ j < a + bs.length then bs[j - a]? else m.read j := by
  induction bs generalizing m a with
  | nil => simp only [memWrite, List.length_nil]; split <;> first | rfl | omega
  | cons b bs ih =>
    simp only [memWrite, ih, Memory.read_write, List.length_cons]
    by_cases h1 : j = a
    · subst h1
      rw [if_neg (by omega), if_pos rfl, if_pos (by omega)]
      simp
    · rw [if_neg h1]
      by_cases h2 : a + 1 ≤ j ∧ j < a + 1 + bs.length
      · rw [if_pos h2, if_pos (by omega)]
        have : j - a = (j - (a + 1)) + 1 := by omega
        simp [this]
      · rw [if_neg h2, if_neg (by omega)]

/-- What was written reads back. -/
theorem memRead_memWrite (m : Memory) (a : Nat) (bs : List Byte) :
    memRead (memWrite m a bs) a bs.length = bs.map some := by
  apply List.ext_getElem?
  intro k
  rw [memRead_getElem?, List.getElem?_map]
  split
  · next hk => rw [read_memWrite, if_pos (by omega)]; simp [List.getElem?_eq_getElem hk]
  · next hk => simp [List.getElem?_eq_none (Nat.le_of_not_lt hk)]

theorem wf_memWrite {m : Memory} (h : m.wf) (a : Nat) (bs : List Byte) : (memWrite m a bs).wf := by
  induction bs generalizing m a with
  | nil => exact h
  | cons b bs ih => exact ih (Memory.wf_write h a b) (a + 1)

theorem within_memWrite {m : Memory} {n : Nat} (h : m.within n) (bs : List Byte) (a : Nat) (ha : a + bs.length ≤ n) :
    (memWrite m a bs).within n := by
  induction bs generalizing m a with
  | nil => exact h
  | cons b bs ih =>
    have hl : a + (bs.length + 1) ≤ n := ha
    exact ih (Memory.within_write h (by omega) b) (a + 1) (by omega)

end Sys2Proof.Machine
end

