-- ==== Sys2Proof/Laws/Operands.lean ====
section
/-! SUPPORT. Laws of the read set (20_memory.md R55): which bytes a decode takes from a slice, and what the pure decoders say of
them. -/

namespace Sys2Proof.Machine

theorem allWritten_eq_some {l : List (Option Byte)} {bs : List Byte} : allWritten l = some bs ↔ l = bs.map some := by
  induction l generalizing bs with
  | nil => cases bs <;> simp [allWritten]
  | cons o l ih =>
    cases o with
    | none => cases bs <;> simp [allWritten]
    | some b =>
      cases h : allWritten l with
      | none =>
        simp only [allWritten, h]
        cases bs with
        | nil => simp
        | cons c cs =>
          simp only [List.map_cons, List.cons.injEq, false_iff, reduceCtorEq]
          rintro ⟨-, hl⟩
          rw [ih.2 hl] at h
          cases h
      | some cs =>
        have hl := ih.1 h
        simp only [allWritten, h]
        cases bs with
        | nil => simp
        | cons c ds =>
          have := @ih ds
          rw [h, Option.some.injEq] at this
          simp [this]

theorem allWritten_eq_none {l : List (Option Byte)} : allWritten l = none ↔ none ∈ l := by
  induction l with
  | nil => simp [allWritten]
  | cons o l ih =>
    cases o with
    | none => simp [allWritten]
    | some b => cases h : allWritten l <;> simp [allWritten, h] at ih ⊢ <;> exact ih

@[simp] theorem varintBytesRead_nil : varintBytesRead [] = some [] := rfl

@[simp] theorem varintBytesRead_none (l : List (Option Byte)) : varintBytesRead (none :: l) = none := rfl

/-- The read set by cases on the length: up to the tag's length where the slice holds it, else the first byte alone. -/
theorem varintBytesRead_some (b : Byte) (l : List (Option Byte)) :
    varintBytesRead (some b :: l) =
      if 2 ^ (tagField b).toNat ≤ l.length + 1 then allWritten ((some b :: l).take (2 ^ (tagField b).toNat))
      else some [b] := by
  simp only [varintBytesRead, varintReadCount, lenOfTag_tagField, List.length_cons]
  split <;> simp [allWritten]

/-- A varint that decodes from a written prefix of the slice: exactly its bytes are read. -/
theorem varintBytesRead_of_prefix {sl : List (Option Byte)} {bs : List Byte} {v L : Nat}
    (hd : varintDecode bs = .ok (v, L)) (hp : bs.map some <+: sl) : varintBytesRead sl = some (bs.take L) := by
  obtain ⟨b, rest, rfl, rfl, hlen, -⟩ := varintDecode_ok hd
  obtain ⟨t, rfl⟩ := hp
  have hlen' : 2 ^ (tagField b).toNat ≤ (rest.map some ++ t).length + 1 := by
    simp only [List.length_cons, List.length_append, List.length_map] at hlen ⊢
    omega
  rw [List.map_cons, List.cons_append, varintBytesRead_some, if_pos hlen', allWritten_eq_some, ← List.cons_append,
    ← List.map_cons, List.take_append_of_le_length (by simpa using hlen), List.map_take]

/-- What was read decodes: the bytes are the front of the slice, and no other byte of it was taken. -/
theorem varintBytesRead_decode_ok {sl : List (Option Byte)} {bs : List Byte} {v L : Nat}
    (hr : varintBytesRead sl = some bs) (hd : varintDecode bs = .ok (v, L)) :
    bs.length = L ∧ bs.map some = sl.take L ∧ L ≤ sl.length := by
  obtain ⟨b, rest, rfl, hL, hlen, -⟩ := varintDecode_ok hd
  match sl, hr with
  | some c :: l, hr =>
    rw [varintBytesRead_some] at hr
    split at hr
    · next h =>
      have he := allWritten_eq_some.1 hr
      have hpos : 0 < 2 ^ (tagField c).toNat := Nat.two_pow_pos _
      obtain ⟨n, hn⟩ : ∃ n, 2 ^ (tagField c).toNat = n + 1 := ⟨2 ^ (tagField c).toNat - 1, by omega⟩
      have hcb : c = b := by
        rw [hn, List.take_succ_cons, List.map_cons] at he
        simpa using (List.cons.inj he).1
      subst hcb
      rw [← hL] at he h
      refine ⟨?_, he.symm, by simpa using h⟩
      have := congrArg List.length he
      simpa [Nat.min_eq_left h] using this.symm
    · next h =>
      simp only [Option.some.injEq, List.cons.injEq] at hr
      obtain ⟨rfl, rfl⟩ := hr
      simp only [List.length_cons, List.length_nil] at hlen
      omega

/-- What was read fails to decode: the slice is empty, or shorter than its first byte's tag says. -/
theorem varintBytesRead_decode_error {sl : List (Option Byte)} {bs : List Byte} {e : VarIntError}
    (hr : varintBytesRead sl = some bs) (hd : varintDecode bs = .error e) :
    sl = [] ∨ ∃ b l, sl = some b :: l ∧ sl.length < 2 ^ (tagField b).toNat := by
  match sl, hr with
  | [], _ => exact .inl rfl
  | some c :: l, hr =>
    refine .inr ⟨c, l, rfl, ?_⟩
    rw [varintBytesRead_some] at hr
    split at hr
    · next h =>
      have he := allWritten_eq_some.1 hr
      have hpos : 0 < 2 ^ (tagField c).toNat := Nat.two_pow_pos _
      obtain ⟨n, hn⟩ : ∃ n, 2 ^ (tagField c).toNat = n + 1 := ⟨2 ^ (tagField c).toNat - 1, by omega⟩
      match bs, he, hd with
      | [], he, _ => simp [hn] at he
      | b :: rest, he, hd =>
        have hl := congrArg List.length he
        rw [hn, List.take_succ_cons, List.map_cons] at he
        have hcb : c = b := by simpa using (List.cons.inj he).1
        subst hcb
        rw [varintDecode_cons] at hd
        simp only [List.length_take, List.length_cons, List.length_map] at hl
        split at hd
        · omega
        · cases hd
    · next h => simpa using h

/-- A slice that is empty or too short for its first byte's tag: what is read fails to decode. -/
theorem varintBytesRead_short {b : Byte} {l : List (Option Byte)}
    (h : l.length + 1 < 2 ^ (tagField b).toNat) : varintBytesRead (some b :: l) = some [b] := by
  rw [varintBytesRead_some, if_neg (by omega)]

theorem varintDecode_singleton_short {b : Byte} {n : Nat} (hn : 1 ≤ n) (h : n < 2 ^ (tagField b).toNat) :
    varintDecode [b] = .error .bufferTooSmall := by
  rw [varintDecode_cons, if_pos (by simp only [List.length_nil]; omega)]

/-! ### The header's read set -/

/-- The first varint's bytes fail to decode: nothing more is read. -/
theorem headerBytesRead_first_error {sl : List (Option Byte)} {bs : List Byte} {e : VarIntError}
    (hr : varintBytesRead sl = some bs) (hd : varintDecode bs = .error e) : headerBytesRead sl = some bs := by
  simp [headerBytesRead, hr, hd]

theorem headerBytesRead_first_none {sl : List (Option Byte)} (hr : varintBytesRead sl = none) :
    headerBytesRead sl = none := by
  simp [headerBytesRead, hr]

/-- The first varint decodes: the second one's bytes are read after it. -/
theorem headerBytesRead_first_ok {sl : List (Option Byte)} {bs : List Byte} {ty a : Nat}
    (hr : varintBytesRead sl = some bs) (hd : varintDecode bs = .ok (ty, a)) :
    headerBytesRead sl = (varintBytesRead (sl.drop a)).map (bs ++ ·) := by
  simp only [headerBytesRead, hr, hd]
  cases varintBytesRead (sl.drop a) <;> rfl

/-- What a header decode makes of the bytes read, in terms of the two varints. -/
theorem frameHeaderDecode_append {bs bs' : List Byte} {ty a : Nat} (hd : varintDecode bs = .ok (ty, a))
    (hl : bs.length = a) :
    frameHeaderDecode (bs ++ bs') =
      match varintDecode bs' with
      | .error e => .error (.varint e)
      | .ok (len, b) => .ok ({ ty := ty, len := len }, a + b) := by
  have h1 : varintDecode (bs ++ bs') = .ok (ty, a) :=
    varintDecode_of_prefix hd (by rw [← hl, List.take_length]; exact List.prefix_append _ _)
  have h2 : (bs ++ bs').drop a = bs' := by rw [← hl]; simp
  simp only [frameHeaderDecode, h1, h2, wrapVarint_ok]
  cases varintDecode bs' with
  | error e => rfl
  | ok p => obtain ⟨len, b⟩ := p; rfl

/-- The header decodes from what was read: the bytes are the front of the slice. -/
theorem headerBytesRead_decode_ok {sl : List (Option Byte)} {bs : List Byte} {h : FrameHeader} {n : Nat}
    (hr : headerBytesRead sl = some bs) (hd : frameHeaderDecode bs = .ok (h, n)) :
    bs.length = n ∧ bs.map some = sl.take n ∧ n ≤ sl.length ∧
      ∃ a b, n = a + b ∧ varintBytesRead sl = some (bs.take a) ∧ varintDecode (bs.take a) = .ok (h.ty, a) ∧
        varintBytesRead (sl.drop a) = some (bs.drop a) ∧ varintDecode (bs.drop a) = .ok (h.len, b) := by
  cases h1 : varintBytesRead sl with
  | none => rw [headerBytesRead_first_none h1] at hr; cases hr
  | some b1 =>
    cases h2 : varintDecode b1 with
    | error e =>
      rw [headerBytesRead_first_error h1 h2, Option.some.injEq] at hr
      subst hr
      obtain ⟨a, b, h3, -⟩ := frameHeaderDecode_ok hd
      rw [h2] at h3; cases h3
    | ok p =>
      obtain ⟨ty, a⟩ := p
      obtain ⟨l1, m1, n1⟩ := varintBytesRead_decode_ok h1 h2
      rw [headerBytesRead_first_ok h1 h2] at hr
      cases h3 : varintBytesRead (sl.drop a) with
      | none => rw [h3] at hr; cases hr
      | some b2 =>
        rw [h3] at hr
        simp only [Option.map_some, Option.some.injEq] at hr
        subst hr
        rw [frameHeaderDecode_append h2 l1] at hd
        cases h4 : varintDecode b2 with
        | error e => rw [h4] at hd; cases hd
        | ok q =>
          obtain ⟨len, b⟩ := q
          rw [h4] at hd
          cases hd
          obtain ⟨l2, m2, n2⟩ := varintBytesRead_decode_ok h3 h4
          have t1 : (b1 ++ b2).take a = b1 := by rw [← l1]; simp
          have t2 : (b1 ++ b2).drop a = b2 := by rw [← l1]; simp
          rw [List.length_drop] at n2
          refine ⟨by simp [l1, l2], ?_, by omega, a, b, rfl, ?_, ?_, ?_, ?_⟩
          · rw [List.map_append, m1, m2, List.take_add]
          · rw [t1]
          · rw [t1]; exact h2
          · rw [t2]; exact h3
          · rw [t2]; exact h4

end Sys2Proof.Machine
end

