-- ==== Sys2Proof/Laws/Exec.lean ====
section
/-! SUPPORT. One inversion lemma per command: everything it can do, with the condition of each case. Later proofs cite these and
never unfold a meaning. -/

namespace Sys2Proof.Machine

@[simp] theorem inWindowOk_iff (s : State) : inWindowOk s = true ↔ s.InWindow := by
  simp [inWindowOk]

@[simp] theorem outWindowOk_iff (s : State) : outWindowOk s = true ↔ s.OutWindow := by
  simp [outWindowOk]

theorem varintLen_of_le {v : Nat} (h : v ≤ max62) : varintLen v = .ok (tier v) := by
  rw [varintLen, if_neg (by omega)]

theorem varintLen_of_lt {v : Nat} (h : max62 < v) : varintLen v = .error .valueTooLarge := by
  rw [varintLen, if_pos h]

theorem execVlen_cases (s : State) :
    (max62 < s.valueIn.toNat ∧ execVlen s = .next (raise .varintValueTooLarge s)) ∨
    (s.valueIn.toNat ≤ max62 ∧ execVlen s = .next (complete { count := tier s.valueIn.toNat } s)) := by
  rcases Nat.lt_or_ge max62 s.valueIn.toNat with h | h
  · exact .inl ⟨h, by simp [execVlen, varintLen_of_lt h, varintErrorCode]⟩
  · exact .inr ⟨h, by simp [execVlen, varintLen_of_le h]⟩

theorem execVenc_cases (s : State) :
    (¬ s.OutWindow ∧ execVenc s = .next (raise .windowError s)) ∨
    (s.OutWindow ∧ max62 < s.valueIn.toNat ∧ execVenc s = .next (raise .varintValueTooLarge s)) ∨
    (s.OutWindow ∧ s.valueIn.toNat ≤ max62 ∧ s.outCap.toNat < tier s.valueIn.toNat ∧
      execVenc s = .next (raise .varintBufferTooSmall s)) ∨
    (s.OutWindow ∧ s.valueIn.toNat ≤ max62 ∧ tier s.valueIn.toNat ≤ s.outCap.toNat ∧
      execVenc s = .next (complete { count := tier s.valueIn.toNat }
        (storeOut s.outOff.toNat (varintBytes s.valueIn.toNat) s))) := by
  by_cases hw : s.OutWindow
  · have hw' := (outWindowOk_iff s).2 hw
    rcases Nat.lt_or_ge max62 s.valueIn.toNat with h | h
    · exact .inr (.inl ⟨hw, h, by simp [execVenc, hw', varintEncode, varintLen_of_lt h, varintErrorCode]⟩)
    · rcases Nat.lt_or_ge s.outCap.toNat (tier s.valueIn.toNat) with hc | hc
      · exact .inr (.inr (.inl ⟨hw, h, hc, by
          simp [execVenc, hw', varintEncode, varintLen_of_le h, hc, varintErrorCode]⟩))
      · exact .inr (.inr (.inr ⟨hw, h, hc, by
          simp [execVenc, hw', varintEncode, varintLen_of_le h, Nat.not_lt.2 hc, varintBytes]⟩))
  · have hw' : ¬ outWindowOk s = true := mt (outWindowOk_iff s).1 hw
    exact .inl ⟨hw, by rw [execVenc, if_neg hw']⟩

theorem execVdec_cases (s : State) :
    (¬ s.InWindow ∧ execVdec s = .next (raise .windowError s)) ∨
    (s.InWindow ∧ varintBytesRead (inSlice s) = none ∧ execVdec s = .fault .readUnwrittenInput) ∨
    (s.InWindow ∧ ∃ bs, varintBytesRead (inSlice s) = some bs ∧ varintDecode bs = .error .bufferTooSmall ∧
      execVdec s = .next (raise .varintBufferTooSmall s)) ∨
    (s.InWindow ∧ ∃ bs v L, varintBytesRead (inSlice s) = some bs ∧ varintDecode bs = .ok (v, L) ∧
      execVdec s = .next (complete { value := v, count := L } s)) := by
  by_cases hw : s.InWindow
  · have hw' := (inWindowOk_iff s).2 hw
    cases hr : varintBytesRead (inSlice s) with
    | none => exact .inr (.inl ⟨hw, rfl, by simp [execVdec, hw', hr]⟩)
    | some bs =>
      cases hd : varintDecode bs with
      | error e =>
        have := varintDecode_error hd
        subst this
        exact .inr (.inr (.inl ⟨hw, bs, rfl, hd, by simp [execVdec, hw', hr, hd, varintErrorCode]⟩))
      | ok p =>
        obtain ⟨v, L⟩ := p
        exact .inr (.inr (.inr ⟨hw, bs, v, L, rfl, hd, by simp [execVdec, hw', hr, hd]⟩))
  · have hw' : ¬ inWindowOk s = true := mt (inWindowOk_iff s).1 hw
    exact .inl ⟨hw, by rw [execVdec, if_neg hw']⟩

theorem frameHeaderDecode_error_kind {bs : List Byte} {e : FrameError} (h : frameHeaderDecode bs = .error e) :
    e = .varint .bufferTooSmall := by
  obtain ⟨e', rfl, h | ⟨_, _, _, h⟩⟩ := frameHeaderDecode_error h <;> rw [varintDecode_error h]

theorem execFhdec_cases (s : State) :
    (¬ s.InWindow ∧ execFhdec s = .next (raise .windowError s)) ∨
    (s.InWindow ∧ headerBytesRead (inSlice s) = none ∧ execFhdec s = .fault .readUnwrittenInput) ∨
    (s.InWindow ∧ ∃ bs, headerBytesRead (inSlice s) = some bs ∧ frameHeaderDecode bs = .error (.varint .bufferTooSmall) ∧
      execFhdec s = .next (raise .frameVarintBufferTooSmall s)) ∨
    (s.InWindow ∧ ∃ bs h n, headerBytesRead (inSlice s) = some bs ∧ frameHeaderDecode bs = .ok (h, n) ∧
      execFhdec s = .next (complete { ty := h.ty, len := h.len, count := n } s)) := by
  by_cases hw : s.InWindow
  · have hw' := (inWindowOk_iff s).2 hw
    cases hr : headerBytesRead (inSlice s) with
    | none => exact .inr (.inl ⟨hw, rfl, by simp [execFhdec, hw', hr]⟩)
    | some bs =>
      cases hd : frameHeaderDecode bs with
      | error e =>
        have := frameHeaderDecode_error_kind hd
        subst this
        exact .inr (.inr (.inl ⟨hw, bs, rfl, hd, by simp [execFhdec, hw', hr, hd, frameErrorCode]⟩))
      | ok p =>
        obtain ⟨h, n⟩ := p
        exact .inr (.inr (.inr ⟨hw, bs, h, n, rfl, hd, by simp [execFhdec, hw', hr, hd]⟩))
  · have hw' : ¬ inWindowOk s = true := mt (inWindowOk_iff s).1 hw
    exact .inl ⟨hw, by rw [execFhdec, if_neg hw']⟩

theorem execFhenc_cases (s : State) :
    (¬ s.OutWindow ∧ execFhenc s = .next (raise .windowError s)) ∨
    (s.OutWindow ∧ (max62 < s.tyIn.toNat ∨ max62 < s.lenIn.toNat) ∧
      execFhenc s = .next (raise .frameVarintValueTooLarge s)) ∨
    (s.OutWindow ∧ s.tyIn.toNat ≤ max62 ∧ s.lenIn.toNat ≤ max62 ∧
      s.outCap.toNat < tier s.tyIn.toNat + tier s.lenIn.toNat ∧
      execFhenc s = .next (raise .frameBufferTooSmall s)) ∨
    (s.OutWindow ∧ s.tyIn.toNat ≤ max62 ∧ s.lenIn.toNat ≤ max62 ∧
      tier s.tyIn.toNat + tier s.lenIn.toNat ≤ s.outCap.toNat ∧
      execFhenc s = .next (complete { count := tier s.tyIn.toNat + tier s.lenIn.toNat }
        (storeOut s.outOff.toNat (varintBytes s.tyIn.toNat ++ varintBytes s.lenIn.toNat) s))) := by
  by_cases hw : s.OutWindow
  · have hw' := (outWindowOk_iff s).2 hw
    rcases Nat.lt_or_ge max62 s.tyIn.toNat with h | h
    · exact .inr (.inl ⟨hw, .inl h, by simp [execFhenc, hw', frameHeaderEncode, varintLen_of_lt h, frameErrorCode]⟩)
    · rcases Nat.lt_or_ge max62 s.lenIn.toNat with h2 | h2
      · exact .inr (.inl ⟨hw, .inr h2, by
          simp [execFhenc, hw', frameHeaderEncode, varintLen_of_le h, varintLen_of_lt h2, frameErrorCode]⟩)
      · rcases Nat.lt_or_ge s.outCap.toNat (tier s.tyIn.toNat + tier s.lenIn.toNat) with hc | hc
        · exact .inr (.inr (.inl ⟨hw, h, h2, hc, by
            simp [execFhenc, hw', frameHeaderEncode, varintLen_of_le h, varintLen_of_le h2, hc, frameErrorCode]⟩))
        · exact .inr (.inr (.inr ⟨hw, h, h2, hc, by
            simp [execFhenc, hw', frameHeaderEncode, varintLen_of_le h, varintLen_of_le h2, Nat.not_lt.2 hc]⟩))
  · have hw' : ¬ outWindowOk s = true := mt (outWindowOk_iff s).1 hw
    exact .inl ⟨hw, by rw [execFhenc, if_neg hw']⟩

theorem execFdec_cases (s : State) :
    (¬ s.InWindow ∧ execFdec s = .next (raise .windowError s)) ∨
    (s.InWindow ∧ headerBytesRead (inSlice s) = none ∧ execFdec s = .fault .readUnwrittenInput) ∨
    (s.InWindow ∧ ∃ bs, headerBytesRead (inSlice s) = some bs ∧ frameHeaderDecode bs = .error (.varint .bufferTooSmall) ∧
      execFdec s = .next (raise .frameVarintBufferTooSmall s)) ∨
    (s.InWindow ∧ ∃ bs h n, headerBytesRead (inSlice s) = some bs ∧ frameHeaderDecode bs = .ok (h, n) ∧
      ((s.inLen.toNat - n < h.len ∧ execFdec s = .next (raise .frameLengthExceedsInput s)) ∨
       (h.len ≤ s.inLen.toNat - n ∧ execFdec s = .next (complete
          { ty := h.ty, len := h.len, count := n + h.len, payloadOff := s.inOff.toNat + n, payloadLen := h.len } s)))) := by
  by_cases hw : s.InWindow
  · have hw' := (inWindowOk_iff s).2 hw
    cases hr : headerBytesRead (inSlice s) with
    | none => exact .inr (.inl ⟨hw, rfl, by simp [execFdec, hw', hr]⟩)
    | some bs =>
      cases hd : frameHeaderDecode bs with
      | error e =>
        have := frameHeaderDecode_error_kind hd
        subst this
        exact .inr (.inr (.inl ⟨hw, bs, rfl, hd, by simp [execFdec, hw', hr, hd, frameErrorCode]⟩))
      | ok p =>
        obtain ⟨h, n⟩ := p
        refine .inr (.inr (.inr ⟨hw, bs, h, n, rfl, hd, ?_⟩))
        rcases Nat.lt_or_ge (s.inLen.toNat - n) h.len with hl | hl
        · exact .inl ⟨hl, by simp [execFdec, hw', hr, hd, frameLocate, hl, frameErrorCode]⟩
        · exact .inr ⟨hl, by simp [execFdec, hw', hr, hd, frameLocate, Nat.not_lt.2 hl]⟩
  · have hw' : ¬ inWindowOk s = true := mt (inWindowOk_iff s).1 hw
    exact .inl ⟨hw, by rw [execFdec, if_neg hw']⟩

/-- What any command can do: raise an error code, complete with results after storing bytes (none but for VENC and FHENC, whose
bytes lie in OUT), or fault on unwritten input. -/
theorem exec_cases (i : Instr) (s : State) :
    (∃ c, c ≠ .ok ∧ exec i s = .next (raise c s)) ∨
    (∃ r bs, (bs = [] ∨ (i = .venc ∨ i = .fhenc) ∧ s.outOff.toNat + bs.length ≤ s.params.outMax) ∧
      exec i s = .next (complete r (storeOut s.outOff.toNat bs s))) ∨
    exec i s = .fault .readUnwrittenInput := by
  cases i with
  | vlen =>
    rcases execVlen_cases s with ⟨-, h⟩ | ⟨-, h⟩
    · exact .inl ⟨_, by decide, h⟩
    · exact .inr (.inl ⟨_, [], .inl rfl, h⟩)
  | venc =>
    rcases execVenc_cases s with ⟨-, h⟩ | ⟨-, -, h⟩ | ⟨-, -, -, h⟩ | ⟨hw, -, hc, h⟩
    · exact .inl ⟨_, by decide, h⟩
    · exact .inl ⟨_, by decide, h⟩
    · exact .inl ⟨_, by decide, h⟩
    · exact .inr (.inl ⟨_, _, .inr ⟨.inl rfl, by rw [varintBytes_length]; omega⟩, h⟩)
  | vdec =>
    rcases execVdec_cases s with ⟨-, h⟩ | ⟨-, -, h⟩ | ⟨-, _, -, -, h⟩ | ⟨-, _, _, _, -, -, h⟩
    · exact .inl ⟨_, by decide, h⟩
    · exact .inr (.inr h)
    · exact .inl ⟨_, by decide, h⟩
    · exact .inr (.inl ⟨_, [], .inl rfl, h⟩)
  | fhdec =>
    rcases execFhdec_cases s with ⟨-, h⟩ | ⟨-, -, h⟩ | ⟨-, _, -, -, h⟩ | ⟨-, _, _, _, -, -, h⟩
    · exact .inl ⟨_, by decide, h⟩
    · exact .inr (.inr h)
    · exact .inl ⟨_, by decide, h⟩
    · exact .inr (.inl ⟨_, [], .inl rfl, h⟩)
  | fhenc =>
    rcases execFhenc_cases s with ⟨-, h⟩ | ⟨-, -, h⟩ | ⟨-, -, -, -, h⟩ | ⟨hw, -, -, hc, h⟩
    · exact .inl ⟨_, by decide, h⟩
    · exact .inl ⟨_, by decide, h⟩
    · exact .inl ⟨_, by decide, h⟩
    · exact .inr (.inl ⟨_, _, .inr ⟨.inr rfl, by
        rw [List.length_append, varintBytes_length, varintBytes_length]; omega⟩, h⟩)
  | fdec =>
    rcases execFdec_cases s with
      ⟨-, h⟩ | ⟨-, -, h⟩ | ⟨-, _, -, -, h⟩ | ⟨-, _, _, _, -, -, ⟨-, h⟩ | ⟨-, h⟩⟩
    · exact .inl ⟨_, by decide, h⟩
    · exact .inr (.inr h)
    · exact .inl ⟨_, by decide, h⟩
    · exact .inl ⟨_, by decide, h⟩
    · exact .inr (.inl ⟨_, [], .inl rfl, h⟩)

end Sys2Proof.Machine
end

