-- ==== Sys2Proof/Laws/HostProgram.lean ====
section
/-! SUPPORT. The small lemmas of the host-program interpreter: host variables, and where the host goes from a line. -/

namespace Sys2Proof.Machine

@[simp] theorem hostVar_setHostVar (vars : HostVars) (h : String) (v : HostValue) :
    hostVar (setHostVar vars h v) h = some v := by
  simp [hostVar, setHostVar]

@[simp] theorem hostNum_setHostVar (vars : HostVars) (h : String) (n : Nat) :
    hostNum (setHostVar vars h (.num n)) h = some n := by
  simp [hostNum]

@[simp] theorem HostState.current_program (p : List HostLine) (k : Nat) (vars : HostVars) :
    (HostState.mk p k vars []).current = p[k]? := rfl

@[simp] theorem HostState.current_expansion (p : List HostLine) (k : Nat) (vars : HostVars) (ln : HostLine)
    (rest : List HostLine) : (HostState.mk p k vars (ln :: rest)).current = some ln := rfl

@[simp] theorem HostState.advance_program (p : List HostLine) (k : Nat) (vars : HostVars) :
    (HostState.mk p k vars []).advance = ⟨p, k + 1, vars, []⟩ := rfl

@[simp] theorem HostState.advance_expansion (p : List HostLine) (k : Nat) (vars : HostVars) (ln : HostLine)
    (rest : List HostLine) : (HostState.mk p k vars (ln :: rest)).advance = ⟨p, k, vars, rest⟩ := rfl

@[simp] theorem HostState.set_mk (p : List HostLine) (k : Nat) (vars : HostVars) (e : List HostLine) (x : String)
    (v : HostValue) : (HostState.mk p k vars e).set x v = ⟨p, k, setHostVar vars x v, e⟩ := rfl

@[simp] theorem runHostTurns_nil (h : HostState) (s : State) : runHostTurns [] h s = .next (h, s) := rfl

/-- Turns run one after the other. -/
theorem runHostTurns_append {ts us : List HostTurn} {h h' : HostState} {s s' : State}
    (hr : runHostTurns ts h s = .next (h', s')) : runHostTurns (ts ++ us) h s = runHostTurns us h' s' := by
  induction ts generalizing h s with
  | nil => cases hr; rfl
  | cons t ts ih =>
    simp only [List.cons_append, runHostTurns] at hr ⊢
    cases ht : runHostTurn t h s with
    | next p => rw [ht] at hr; exact ih hr
    | fault r => rw [ht] at hr; cases hr
    | refused r => rw [ht] at hr; cases hr

end Sys2Proof.Machine
end

