-- ==== Sys2Proof/Laws/PerInstr.lean ====
section
/-! SUPPORT. Families of statements about the commands as syntax, made per command. -/

namespace Sys2Proof.Laws

/-- The command word of a command has RSVD zero, an OP of the command map, and is its row of opcode_table.json (R70). -/
def EncodedWord.Statement (i : Instr) : Prop :=
  rsvdField (encode i) = 0 ∧ commandOfOp (opField (encode i)) = some i ∧
    (⟨i, 0xFFFFFFFFFFFFFFFF, encode i⟩ : OpRow) ∈ opTable

theorem EncodedWord.vlen : EncodedWord.Statement .vlen := by unfold EncodedWord.Statement; decide
theorem EncodedWord.venc : EncodedWord.Statement .venc := by unfold EncodedWord.Statement; decide
theorem EncodedWord.vdec : EncodedWord.Statement .vdec := by unfold EncodedWord.Statement; decide
theorem EncodedWord.fhdec : EncodedWord.Statement .fhdec := by unfold EncodedWord.Statement; decide
theorem EncodedWord.fhenc : EncodedWord.Statement .fhenc := by unfold EncodedWord.Statement; decide
theorem EncodedWord.fdec : EncodedWord.Statement .fdec := by unfold EncodedWord.Statement; decide

end Sys2Proof.Laws
end

