-- ==== Sys2Proof/Laws/Step.lean ====
section
/-! SUPPORT. Everything one step can do, said once. -/

namespace Sys2Proof.Machine

/-- Everything a completion step that answers a next state can do: nothing, if nothing is in flight; an error completion; or a
normal completion after storing bytes inside the legal output window. -/
theorem completionStep_next {s t : State} (h : completionStep s = .next t) :
    (s.pending = none ∧ t = s) ∨
    (∃ w, s.pending = some w ∧
      ((∃ c, c ≠ .ok ∧ t = raise c s) ∨
       (∃ i r bs, decode w = .ok i ∧ exec i s = .next t ∧
          (bs = [] ∨ (i = .venc ∨ i = .fhenc) ∧ s.outOff.toNat + bs.length ≤ s.params.outMax) ∧
          t = complete r (storeOut s.outOff.toNat bs s)))) := by
  unfold completionStep at h
  cases hp : s.pending with
  | none => rw [hp] at h; cases h; exact .inl ⟨rfl, rfl⟩
  | some w =>
    rw [hp] at h
    refine .inr ⟨w, rfl, ?_⟩
    cases hd : decode w with
    | error e =>
      simp only [hd] at h
      cases h
      exact .inl ⟨_, by decide, rfl⟩
    | ok i =>
      simp only [hd] at h
      rcases exec_cases i s with ⟨c, hc, he⟩ | ⟨r, bs, hb, he⟩ | he
      · rw [he] at h; cases h; exact .inl ⟨c, hc, rfl⟩
      · exact .inr ⟨i, r, bs, rfl, h, hb, by rw [he] at h; cases h; rfl⟩
      · rw [he] at h; cases h

/-- Everything a step that answers a next state can do. -/
theorem step_next {s t : State} (h : step s = .next t) :
    (s.agenda = [] ∧ completionStep s = .next t) ∨
    (∃ rest, s.agenda = .completion :: rest ∧ completionStep { s with agenda := rest } = .next t) ∨
    (∃ a rest, s.agenda = .host a :: rest ∧ hostAccess a { s with agenda := rest } = .next t) ∨
    (∃ rest, s.agenda = .reset :: rest ∧ t = assertReset { s with agenda := rest }) := by
  unfold step nextEvent at h
  cases ha : s.agenda with
  | nil => rw [ha] at h; exact .inl ⟨rfl, h⟩
  | cons e rest =>
    rw [ha] at h
    cases e with
    | host a => exact .inr (.inr (.inl ⟨a, rest, rfl, h⟩))
    | completion => exact .inr (.inl ⟨rest, rfl, h⟩)
    | reset => simp only [takeEvent] at h; cases h; exact .inr (.inr (.inr ⟨rest, rfl, rfl⟩))
    | otherHost a => simp only [takeEvent] at h; cases h

/-- A run of no step stays where it is. -/
theorem runs_zero {s t : State} (h : Runs 0 s t) : t = s := by
  have h' := (Host.Core.run.eq_1 Sys2Proof.core s).symm.trans h
  cases h'
  rfl

/-- A run of `k + 1` steps is one step and a run of `k`. -/
theorem runs_succ {k : Nat} {s t : State} (h : Runs (k + 1) s t) : ∃ u, step s = .next u ∧ Runs k u t := by
  have h' := (Host.Core.run.eq_2 Sys2Proof.core s k).symm.trans h
  cases hs : step s with
  | next u => rw [show Sys2Proof.core.step s = .next u from hs] at h'; exact ⟨u, rfl, h'⟩
  | fault r => rw [show Sys2Proof.core.step s = .fault r from hs] at h'; cases h'
  | refused r => rw [show Sys2Proof.core.step s = .refused r from hs] at h'; cases h'

theorem runs_of_step {k : Nat} {s t u : State} (h : step s = .next u) (hr : Runs k u t) : Runs (k + 1) s t := by
  refine (Host.Core.run.eq_2 Sys2Proof.core s k).trans ?_
  rw [show Sys2Proof.core.step s = .next u from h]
  exact hr

/-- Runs of the same length from the same state end in the same state. -/
theorem runs_unique {k : Nat} {s t u : State} (ht : Runs k s t) (hu : Runs k s u) : t = u := by
  have h := (show Sys2Proof.core.run k s = .next t from ht).symm.trans hu
  cases h
  rfl

theorem runs_append {m n : Nat} {s u t : State} (h1 : Runs m s u) (h2 : Runs n u t) : Runs (m + n) s t := by
  induction m generalizing s with
  | zero => rw [runs_zero h1] at h2; simpa using h2
  | succ m ih =>
    obtain ⟨v, hv, h1⟩ := runs_succ h1
    rw [Nat.succ_add]
    exact runs_of_step hv (ih h1)

theorem runs_split {m n : Nat} {s t : State} (h : Runs (m + n) s t) : ∃ u, Runs m s u ∧ Runs n u t := by
  induction m generalizing s with
  | zero => exact ⟨s, rfl, by simpa using h⟩
  | succ m ih =>
    rw [Nat.succ_add] at h
    obtain ⟨v, hv, h⟩ := runs_succ h
    obtain ⟨u, h1, h2⟩ := ih h
    exact ⟨u, runs_of_step hv h1, h2⟩

/-- A completion step touches neither the agenda nor the parameters. -/
theorem completionStep_keeps {s t : State} (h : completionStep s = .next t) : t.agenda = s.agenda ∧ t.params = s.params := by
  rcases completionStep_next h with ⟨-, rfl⟩ | ⟨w, -, ⟨c, -, rfl⟩ | ⟨i, r, bs, -, -, -, rfl⟩⟩ <;> exact ⟨rfl, rfl⟩

/-- A host access touches neither the agenda nor the parameters. -/
theorem hostAccess_keeps {a : Access} {s t : State} (h : hostAccess a s = .next t) :
    t.agenda = s.agenda ∧ t.params = s.params := by
  rcases hostAccess_next h with ⟨_, _, d, k, -, rfl⟩ | ⟨_, _, v, -, rfl | ⟨-, r, -, -, -, rfl⟩ | ⟨-, i, -, -, -, rfl⟩ |
    ⟨-, j, -, -, -, rfl⟩⟩
  · exact ⟨rfl, rfl⟩
  · exact ⟨rfl, rfl⟩
  · cases r <;> exact ⟨rfl, rfl⟩
  · exact ⟨rfl, rfl⟩
  · exact ⟨rfl, rfl⟩

/-- A step takes one entry of the agenda and keeps the parameters. -/
theorem step_keeps {s t : State} (h : step s = .next t) : t.agenda = s.agenda.tail ∧ t.params = s.params := by
  rcases step_next h with ⟨ha, h⟩ | ⟨rest, ha, h⟩ | ⟨a, rest, ha, h⟩ | ⟨rest, ha, rfl⟩
  · rw [(completionStep_keeps h).1, (completionStep_keeps h).2, ha]; exact ⟨rfl, rfl⟩
  · rw [(completionStep_keeps h).1, (completionStep_keeps h).2, ha]; exact ⟨rfl, rfl⟩
  · rw [(hostAccess_keeps h).1, (hostAccess_keeps h).2, ha]; exact ⟨rfl, rfl⟩
  · rw [ha]; exact ⟨rfl, rfl⟩

/-- A command that completes leaves nothing in flight. -/
theorem exec_next_idle {i : Instr} {s t : State} (h : exec i s = .next t) : t.pending = none ∧ t.busy = false := by
  rcases exec_cases i s with ⟨c, -, he⟩ | ⟨r, bs, -, he⟩ | he <;> rw [he] at h <;> cases h <;> exact ⟨rfl, rfl⟩

end Sys2Proof.Machine
end

