-- ==== Sys2Proof/Tests/Slice0.lean ====
section
/-! SUPPORT. The author's tests: ill-formed parameters and words refused, command words written out from 30_encoding.md R70,
single steps on the vectors of 95_test_vectors.md, and for every obligation with hypotheses a witness that meets them. -/

open Sys2Proof Sys2Proof.Machine

namespace Sys2Proof.Tests

/-! ### Small states -/

/-- 95_test_vectors.md's start state: reset, with IN_MAX = OUT_MAX = 64; BASE = 0. -/
def start : State := { State.reset with params := ⟨0, 64, 64⟩ }

/-- The slice `bs` at `IN[off]`, and the input window on it. -/
def onInput (off : Nat) (bs : List Byte) : State :=
  { start with inOff := BitVec.ofNat 64 off, inLen := BitVec.ofNat 64 bs.length, inBuf := memWrite [] off bs }

/-- OUT[0..8) holds AA, and the output window is at 0 with capacity `cap`. -/
def onOutput (cap : Nat) : State :=
  { start with outCap := BitVec.ofNat 64 cap, outBuf := memWrite [] 0 (List.replicate 8 0xAA) }

/-- VALUE_IN for an encode. -/
def vencOn (v cap : Nat) : State := { onOutput cap with valueIn := BitVec.ofNat 64 v }

/-- TY_IN and LEN_IN for an encode. -/
def fhencOn (ty len cap : Nat) : State :=
  { onOutput cap with tyIn := BitVec.ofNat 64 ty, lenIn := BitVec.ofNat 64 len }

/-- A command in flight. -/
def inFlight (w : Word) : State := startCommand w start

/-- The next state of an outcome, if it is one. -/
def after (o : Host.Outcome State Fault Refusal) : Option State :=
  match o with
  | .next t => some t
  | .fault _ => none
  | .refused _ => none

/-- The fault of an outcome, if it is one. -/
def faultOf (o : Host.Outcome State Fault Refusal) : Option Fault :=
  match o with
  | .fault r => some r
  | .next _ => none
  | .refused _ => none

/-- The refusal of an outcome, if it is one. -/
def refusalOf (o : Host.Outcome State Fault Refusal) : Option Refusal :=
  match o with
  | .refused r => some r
  | .next _ => none
  | .fault _ => none

/-- CODE and RES_COUNT after a command. -/
def codeCount (o : Host.Outcome State Fault Refusal) : Option (Byte × Word) :=
  (after o).map fun t => (t.statusCode, t.resCount)

/-! ### Ill-formed terms are refused (00_scope.md R3, 30_encoding.md R71) -/

theorem test_params_legal : Params.wf ⟨0x40000, 16, 65536⟩ = true := by decide
theorem test_params_base : Params.wf ⟨0x20000, 16, 16⟩ = false := by decide
theorem test_params_inMax : Params.wf ⟨0, 15, 16⟩ = false ∧ Params.wf ⟨0, 65537, 16⟩ = false := by decide
theorem test_params_outMax : Params.wf ⟨0, 16, 15⟩ = false ∧ Params.wf ⟨0, 16, 65537⟩ = false := by decide
theorem test_word_rsvd :
    legalCommandWord 0x10 = false ∧ legalCommandWord 0x8000000000000001 = false := by decide
theorem test_word_op :
    legalCommandWord 0x0 = false ∧ legalCommandWord 0x7 = false ∧ legalCommandWord 0xF = false := by decide

/-! ### Command words, bit by bit (30_encoding.md R70: RSVD 63:4 zero, OP 3:0) -/

theorem test_decode_vlen : decode (0#60 ++ 0b0001#4) = .ok .vlen := by rfl
theorem test_decode_venc : decode (0#60 ++ 0b0010#4) = .ok .venc := by rfl
theorem test_decode_vdec : decode (0#60 ++ 0b0011#4) = .ok .vdec := by rfl
theorem test_decode_fhdec : decode (0#60 ++ 0b0100#4) = .ok .fhdec := by rfl
theorem test_decode_fhenc : decode (0#60 ++ 0b0101#4) = .ok .fhenc := by rfl
theorem test_decode_fdec : decode (0#60 ++ 0b0110#4) = .ok .fdec := by rfl

/-! ### One step each, from 95_test_vectors.md -/

/-- 2.1. -/
theorem test_vlen_16384 : codeCount (exec .vlen { start with valueIn := 16384 }) = some (0x00, 4) := by decide
/-- 2.1. -/
theorem test_vlen_too_large : codeCount (exec .vlen { start with valueIn := 0x4000000000000000 }) = some (0x02, 0) := by decide
/-- 2.2, row 15293. -/
theorem test_venc_15293 : (after (exec .venc (vencOn 15293 2))).map (fun t => (t.statusCode, t.resCount, memRead t.outBuf 0 3)) =
    some (0x00, 2, [some 0x7B, some 0xBD, some 0xAA]) := by decide
/-- 2.2, the first window case. -/
theorem test_venc_window : codeCount (exec .venc { start with outOff := 60, outCap := 5 }) = some (0xF2, 0) := by decide
/-- 2.3. -/
theorem test_vdec_eight : (after (exec .vdec (onInput 0 [0xC2, 0x19, 0x7C, 0x5E, 0xFF, 0x14, 0xE8, 0x8C]))).map
    (fun t => (t.statusCode, t.resValue, t.resCount)) = some (0x00, 151288809941952652, 8) := by decide
/-- 2.3, unwritten input. -/
theorem test_vdec_unwritten : faultOf (exec .vdec { start with inLen := 1 }) = some .readUnwrittenInput := by decide
/-- 2.4. -/
theorem test_fhdec_noncanonical : (after (exec .fhdec (onInput 0 [0x40, 0x04, 0x80, 0x00, 0x00, 0x02, 0x0A, 0x0B]))).map
    (fun t => (t.statusCode, t.resTy, t.resLen, t.resCount)) = some (0x00, 4, 2, 6) := by decide
/-- 2.4. -/
theorem test_fhdec_truncated : codeCount (exec .fhdec (onInput 0 [0x04, 0x40])) = some (0x21, 0) := by decide
/-- 2.5. -/
theorem test_fhenc_three : (after (exec .fhenc (fhencOn 0x21 0x3FFF 3))).map
    (fun t => (t.statusCode, t.resCount, memRead t.outBuf 0 4)) = some (0x00, 3, [some 0x21, some 0x7F, some 0xFF, some 0xAA]) := by
  decide
/-- 2.5: the type alone would fit; nothing is written. -/
theorem test_fhenc_atomic : (after (exec .fhenc (fhencOn 4 0 1))).map (fun t => (t.statusCode, t.resCount, memRead t.outBuf 0 1)) =
    some (0x11, 0, [some 0xAA]) := by decide
/-- 2.6, the IN_OFF = 5 case. -/
theorem test_fdec_offset : (after (exec .fdec (onInput 5 [0x04, 0x03, 0xAA, 0xBB, 0xCC]))).map
    (fun t => (t.statusCode, t.resTy, t.resLen, t.resCount, t.resPayloadOff, t.resPayloadLen)) = some (0x00, 4, 3, 5, 7, 3) := by
  decide
/-- 2.6, the unread payload: IN[2..5) was never written. -/
theorem test_fdec_unread : (after (exec .fdec { onInput 0 [0x04, 0x03] with inLen := 5 })).map
    (fun t => (t.statusCode, t.resPayloadOff, t.resPayloadLen)) = some (0x00, 2, 3) := by decide
/-- 2.7: STATUS straight after a CMD write. -/
theorem test_status_busy : (after (hostAccess (.read 8 0x008) (inFlight 0x9))).map (·.readData) = some (some 0x1FE) := by decide
/-- 2.7: a second CMD write before completion. -/
theorem test_second_cmd : faultOf (hostAccess (.write 8 0x000 0x1) (inFlight 0x1)) = some .hazardWriteWhileBusy := by decide
/-- 2.7: bit 63 is set, so VLEN is not run. -/
theorem test_illegal_word : codeCount (step (inFlight 0x8000000000000001)) = some (0xF1, 0) := by decide
/-- 2.7: after reset STATUS reads 0x0FF. -/
theorem test_status_reset : (after (hostAccess (.read 8 0x008) start)).map (·.readData) = some (some 0x0FF) := by decide
/-- 95_test_vectors.md P1, line 12, with n = 1 and m = 2: three reads, then `d` is the sequence. -/
theorem test_rbs_sequence :
    (match runHostLines 5
        { program := [.rbsOut "d" (.lit 0) (.add (.var "n") (.var "m"))], line := 0, vars := [("n", .num 1), ("m", .num 2)] }
        { start with outBuf := memWrite [] 0 [0x00, 0x04, 0x00] } with
      | .next (h, _) => (hostVar h.vars "d", h.line, h.expansion)
      | .fault _ => (none, 0, [])
      | .refused _ => (none, 0, [])) = (some (.seq [0x00, 0x04, 0x00]), 1, []) := by decide
/-- 95_test_vectors.md P5: VALUE_IN, CMD, VALUE_IN again. -/
def p5 : HostState :=
  { program := [.write .valueIn (.lit 5), .write .cmd (.lit 1), .write .valueIn (.lit (2 ^ 62))], line := 0, vars := [] }
/-- P5, the completion step has not yet run when line 3 executes. -/
theorem test_p5_fault : (match runHostTurns [.line, .line, .line] p5 start with
    | .fault r => some r
    | .next _ => none
    | .refused _ => none) = some .hazardWriteWhileBusy := by decide
/-- P5, it has run: CODE 0x00 and RES_COUNT = 1. -/
theorem test_p5_completes : (match runHostTurns [.line, .line, .completion, .line] p5 start with
    | .next (_, s) => some (s.statusCode, s.resCount)
    | .fault _ => none
    | .refused _ => none) = some (0x00, 1) := by decide
/-- R86: EXEC VLEN polls once while busy and once after the completion, and ends with `t` = 0x000. -/
theorem test_exec_waits : (match runHostTurns [.line, .line, .line, .line, .completion, .line, .line, .line]
      { program := execLines .vlen "L" "t", line := 0, vars := [] } start with
    | .next (h, _) => (h.line, hostVar h.vars "t")
    | .fault _ => (0, none)
    | .refused _ => (0, none)) = (4, some (.num 0x000)) := by decide
/-- Log 17: a two-byte write to IN while BUSY = 1. -/
theorem test_wide_write_busy : refusalOf (hostAccess (.write 2 0x10000 0) (inFlight 0x1)) = some .bufferAccessWidth := by decide
/-- 95_test_vectors.md P2, line 1: the second byte of a WBS. -/
theorem test_wbs_second : ((wbsInLines (.lit 0) [.lit 0x04, .lit 0x03])[1]?).map (lineAccess start.params []) =
    some (some (.write 1 0x10001 0x03)) := by decide
/-- 30_encoding.md R84. -/
theorem test_wire_settings : wireValue .frameTypeSettings = 4 := by rfl

/-! ### The invariant at concrete states -/

theorem start_inv : start.Inv where
  params := by decide
  busy := rfl
  inFlight := by intro w h; cases h
  idleCode := by intro; decide
  errorZero := by intro _ _; exact ⟨rfl, rfl, rfl, rfl, rfl, rfl⟩
  inForm := by decide
  outForm := by decide
  values := by decide
  count := by decide
  view := by decide

/-- A command in flight in the start state, with any agenda. -/
theorem inFlight_inv (w : Word) (es : List Event) : State.Inv { inFlight w with agenda := es } where
  params := (by decide : Params.wf ⟨0, 64, 64⟩ = true)
  busy := rfl
  inFlight := by intro v h; cases h; exact ⟨rfl, rfl⟩
  idleCode := by intro h; cases h
  errorZero := by intro h; cases h
  inForm := by constructor <;> simp [inFlight, startCommand, start, State.reset]
  outForm := by constructor <;> simp [inFlight, startCommand, start, State.reset]
  values := start_inv.values
  count := start_inv.count
  view := start_inv.view

/-! ### Witnesses: for each statement with hypotheses, states and operands that meet them, clause by clause -/

theorem witness_DecodeAcceptsExactlyTheMap :
    (encode .vlen).toNat / 16 = 0 ∧ (0x10 : Word).toNat / 16 ≠ 0 ∧ (⟨.fdec, 0xFFFFFFFFFFFFFFFF, 6⟩ : OpRow) ∈ opTable := by
  decide

theorem witness_IllegalWordCompletesWithF1 : start.busy = false ∧
    (0x10 : Word).toNat / 16 ≠ 0 ∧ (0x0 : Word).toNat % 16 = 0 ∧ 7 ≤ (0x7 : Word).toNat % 16 ∧ 7 ≤ (0xF : Word).toNat % 16 := by
  decide

theorem witness_StepRunsTheDecodedCommand :
    (∃ s : State, s.agenda = .completion :: [] ∧ s.pending = some 0x6 ∧ decode 0x6 = .ok .fdec) ∧
    (∃ s : State, s.agenda = [] ∧ s.pending = some 0x1 ∧ decode 0x1 = .ok .vlen) ∧
    decodeTableWord 64 0x6 = some .fdec ∧ decodeTableWord 8 0x1 = some .vlen :=
  ⟨⟨{ inFlight 0x6 with agenda := [.completion] }, rfl, rfl, rfl⟩, ⟨inFlight 0x1, rfl, rfl, rfl⟩, rfl, rfl⟩

theorem witness_StepTakesTheNextEvent :
    (∃ s : State, s.agenda = .host (.read 8 0x008) :: []) ∧ (∃ s : State, s.agenda = .reset :: []) ∧
    (∃ s : State, s.agenda = .otherHost (.read 8 0x008) :: []) ∧
    (∃ s : State, s.agenda = .completion :: [] ∧ s.pending = none) ∧ (∃ s : State, s.agenda = [] ∧ s.pending = none) :=
  ⟨⟨{ start with agenda := [.host (.read 8 0x008)] }, rfl⟩, ⟨{ start with agenda := [.reset] }, rfl⟩,
   ⟨{ start with agenda := [.otherHost (.read 8 0x008)] }, rfl⟩, ⟨{ start with agenda := [.completion] }, rfl, rfl⟩,
   ⟨start, rfl, rfl⟩⟩

/-- Both ends of each tier, and the first value out of the domain. -/
theorem witness_VlenResult :
    (vencOn 63 0).valueIn.toNat = 63 ∧ (vencOn 64 0).valueIn.toNat = 64 ∧ (vencOn 16383 0).valueIn.toNat = 16383 ∧
    (vencOn 16384 0).valueIn.toNat = 16384 ∧ (vencOn 1073741823 0).valueIn.toNat = 1073741823 ∧
    (vencOn 1073741824 0).valueIn.toNat = 1073741824 ∧ (vencOn (2 ^ 62 - 1) 0).valueIn.toNat = 2 ^ 62 - 1 ∧
    (vencOn (2 ^ 62) 0).valueIn.toNat = 2 ^ 62 ∧ (after (exec .vlen (vencOn 0 0))).isSome := by decide

theorem witness_VencResult :
    (¬ ({ start with outOff := 60, outCap := 5 } : State).OutWindow) ∧
    ((vencOn (2 ^ 62) 0).OutWindow ∧ max62 < (vencOn (2 ^ 62) 0).valueIn.toNat) ∧
    ((vencOn 16384 3).OutWindow ∧ (vencOn 16384 3).valueIn.toNat ≤ max62 ∧
      (vencOn 16384 3).outCap.toNat < tier (vencOn 16384 3).valueIn.toNat) ∧
    ((vencOn (2 ^ 62 - 1) 8).OutWindow ∧ (vencOn (2 ^ 62 - 1) 8).valueIn.toNat ≤ max62 ∧
      tier (vencOn (2 ^ 62 - 1) 8).valueIn.toNat ≤ (vencOn (2 ^ 62 - 1) 8).outCap.toNat) ∧
    (after (exec .venc (vencOn 5 0))).isSome := by decide

theorem witness_VdecResult :
    (¬ ({ start with inOff := 64, inLen := 1 } : State).InWindow) ∧
    (({ start with inOff := 64 } : State).InWindow ∧ ({ start with inOff := 64 } : State).inLen.toNat = 0) ∧
    ((onInput 63 [0x40]).InWindow ∧ 0 < (onInput 63 [0x40]).inLen.toNat ∧ (onInput 63 [0x40]).inBuf.read 63 = some 0x40 ∧
      (onInput 63 [0x40]).inLen.toNat < 2 ^ (tagField 0x40).toNat) ∧
    ((onInput 0 [0x40, 0x25]).InWindow ∧ ([0x40, 0x25] : List Byte).length = 2 ^ (tagField 0x40).toNat ∧
      2 ^ (tagField 0x40).toNat ≤ (onInput 0 [0x40, 0x25]).inLen.toNat ∧
      memRead (onInput 0 [0x40, 0x25]).inBuf 0 2 = [some 0x40, some 0x25]) ∧
    (after (exec .vdec start)).isSome := by decide

/-- The truncations of 95_test_vectors.md 2.4: the empty slice, `40`, `04`, `04 40`; the window; and a success. -/
theorem witness_FhdecResult :
    frameHeaderDecode [] = .error (.varint .bufferTooSmall) ∧
    (¬ ({ start with inOff := 64, inLen := 1 } : State).InWindow) ∧
    (start.InWindow ∧ start.inLen.toNat = 0) ∧
    ((onInput 0 [0x40]).InWindow ∧ 0 < (onInput 0 [0x40]).inLen.toNat ∧ (onInput 0 [0x40]).inBuf.read 0 = some 0x40 ∧
      (onInput 0 [0x40]).inLen.toNat < 2 ^ (tagField 0x40).toNat) ∧
    (onInput 0 [0x04]).InWindow ∧ ([0x04] : List Byte).map some <+: inSlice (onInput 0 [0x04]) ∧
    (onInput 0 [0x04]).inLen.toNat = 1 ∧ varintDecode [0x04] = .ok (4, 1) ∧
    (onInput 0 [0x04, 0x40]).InWindow ∧ ([0x04] : List Byte).map some <+: inSlice (onInput 0 [0x04, 0x40]) ∧
    1 < (onInput 0 [0x04, 0x40]).inLen.toNat ∧ (onInput 0 [0x04, 0x40]).inBuf.read 1 = some 0x40 ∧
    (onInput 0 [0x04, 0x40]).inLen.toNat - 1 < 2 ^ (tagField 0x40).toNat ∧
    (onInput 0 [0x04, 0x03]).InWindow ∧ ([0x04] : List Byte).map some <+: inSlice (onInput 0 [0x04, 0x03]) ∧
    ([0x03] : List Byte).map some <+: (inSlice (onInput 0 [0x04, 0x03])).drop 1 ∧ varintDecode [0x03] = .ok (3, 1) ∧
    (after (exec .fhdec start)).isSome := by
  refine ⟨rfl, ?_⟩
  decide

theorem witness_FhencResult :
    (¬ ({ start with outOff := 63, outCap := 2 } : State).OutWindow) ∧
    ((fhencOn (2 ^ 62) 0 16).OutWindow ∧ max62 < (fhencOn (2 ^ 62) 0 16).tyIn.toNat) ∧
    ((fhencOn 0 (2 ^ 64 - 1) 0).OutWindow ∧ max62 < (fhencOn 0 (2 ^ 64 - 1) 0).lenIn.toNat) ∧
    ((fhencOn 4 0 1).OutWindow ∧ (fhencOn 4 0 1).tyIn.toNat ≤ max62 ∧ (fhencOn 4 0 1).lenIn.toNat ≤ max62 ∧
      (fhencOn 4 0 1).outCap.toNat < tier (fhencOn 4 0 1).tyIn.toNat + tier (fhencOn 4 0 1).lenIn.toNat) ∧
    ((fhencOn 4 0 2).OutWindow ∧ (fhencOn 4 0 2).tyIn.toNat ≤ max62 ∧ (fhencOn 4 0 2).lenIn.toNat ≤ max62 ∧
      tier (fhencOn 4 0 2).tyIn.toNat + tier (fhencOn 4 0 2).lenIn.toNat ≤ (fhencOn 4 0 2).outCap.toNat) ∧
    (after (exec .fhenc start)).isSome := by decide

/-- The clauses FDEC shares with FHDEC have their witnesses there; here the payload check on both sides of its bound. -/
theorem witness_FdecResult :
    ((onInput 0 [0x00, 0x04, 0x01, 0x02, 0x03]).InWindow ∧
      ([0x00] : List Byte).map some <+: inSlice (onInput 0 [0x00, 0x04, 0x01, 0x02, 0x03]) ∧ varintDecode [0x00] = .ok (0, 1) ∧
      ([0x04] : List Byte).map some <+: (inSlice (onInput 0 [0x00, 0x04, 0x01, 0x02, 0x03])).drop 1 ∧
      varintDecode [0x04] = .ok (4, 1) ∧ (onInput 0 [0x00, 0x04, 0x01, 0x02, 0x03]).inLen.toNat - (1 + 1) < 4) ∧
    ((onInput 0 [0x00, 0x04, 0x01, 0x02, 0x03, 0x04]).InWindow ∧
      ([0x00] : List Byte).map some <+: inSlice (onInput 0 [0x00, 0x04, 0x01, 0x02, 0x03, 0x04]) ∧
      ([0x04] : List Byte).map some <+: (inSlice (onInput 0 [0x00, 0x04, 0x01, 0x02, 0x03, 0x04])).drop 1 ∧
      4 ≤ (onInput 0 [0x00, 0x04, 0x01, 0x02, 0x03, 0x04]).inLen.toNat - (1 + 1)) ∧
    (after (exec .fdec start)).isSome := by decide

theorem witness_VarintByteLayout :
    ((1, 0) : Nat × Nat) ∈ [(1, 0), (2, 1), (4, 2), (8, 3)] ∧ 63 < 2 ^ (8 * 1 - 2) ∧ 16383 < 2 ^ (8 * 2 - 2) ∧
    2 ^ 30 - 1 < 2 ^ (8 * 4 - 2) ∧ ((8, 3) : Nat × Nat) ∈ [(1, 0), (2, 1), (4, 2), (8, 3)] ∧ 2 ^ 62 - 1 < 2 ^ (8 * 8 - 2) := by
  decide

/-- 95_test_vectors.md S4: one byte short for each tag, and exactly long enough for the longest. -/
theorem witness_DecodeFailsOnlyOnShortInput :
    ([0x40] : List Byte).length < 2 ^ (tagField 0x40).toNat ∧ ([0x80, 0, 0] : List Byte).length < 2 ^ (tagField 0x80).toNat ∧
    ([0xC0, 0, 0, 0, 0, 0, 0] : List Byte).length < 2 ^ (tagField 0xC0).toNat ∧
    2 ^ (tagField 0xC0).toNat ≤ ([0xC0, 0, 0, 0, 0, 0, 0, 0] : List Byte).length ∧
    varintDecode [0x40] = .error .bufferTooSmall := by decide

theorem witness_VarintRoundTrip : max62 ≤ max62 ∧ tier max62 ≤ 8 ∧ 0 ≤ max62 ∧ tier 0 ≤ 1 := by decide

theorem witness_TierBoundaries : 63 ≤ 64 ∧ 64 ≤ max62 ∧ 16383 ≤ 16384 ∧ max62 ≤ max62 := by decide

/-- 95_test_vectors.md 2.3: the eight-byte 4 with a byte after it, and the two-byte 37. -/
theorem witness_NonCanonicalVarintAccepted :
    8 ∈ [1, 2, 4, 8] ∧ 4 < 2 ^ (8 * 8 - 2) ∧ 2 ∈ [1, 2, 4, 8] ∧ 37 < 2 ^ (8 * 2 - 2) ∧
    (onInput 0 [0xC0, 0, 0, 0, 0, 0, 0, 4, 0]).InWindow ∧
    inSlice (onInput 0 [0xC0, 0, 0, 0, 0, 0, 0, 4, 0]) = (varintBytesAt 4 8 ++ [0]).map some := by decide

theorem witness_FrameRoundTrip :
    max62 ≤ max62 ∧ 1 ≤ max62 ∧ tier max62 + tier 1 ≤ 9 ∧ ([0x7E] : List Byte).length = 1 := by decide

/-- 95_test_vectors.md S6. -/
theorem witness_OverReadGuard :
    frameHeaderDecode [0x00, 0x04] = .ok ({ ty := 0, len := 4 }, ([0x00, 0x04] : List Byte).length) ∧
    ([0x01, 0x02, 0x03] : List Byte).length < ({ ty := 0, len := 4 } : FrameHeader).len ∧
    (onInput 0 [0x00, 0x04, 0x01, 0x02, 0x03]).InWindow ∧
    inSlice (onInput 0 [0x00, 0x04, 0x01, 0x02, 0x03]) = (([0x00, 0x04] : List Byte) ++ [0x01, 0x02, 0x03]).map some :=
  ⟨rfl, by decide, by decide, by decide⟩

/-- Every command completes with success somewhere. -/
theorem witness_success :
    (∃ t, exec .vlen (vencOn 5 0) = .next t ∧ t.statusCode = 0x00) ∧
    (∃ t, exec .venc (vencOn 64 2) = .next t ∧ t.statusCode = 0x00) ∧
    (∃ t, exec .vdec (onInput 0 [0x25]) = .next t ∧ t.statusCode = 0x00) ∧
    (∃ t, exec .fhdec (onInput 0 [0x04, 0x00]) = .next t ∧ t.statusCode = 0x00) ∧
    (∃ t, exec .fhenc (fhencOn 4 0 2) = .next t ∧ t.statusCode = 0x00) ∧
    (∃ t, exec .fdec (onInput 0 [0x04, 0x00]) = .next t ∧ t.statusCode = 0x00) :=
  ⟨⟨_, rfl, by decide⟩, ⟨_, rfl, by decide⟩, ⟨_, rfl, by decide⟩, ⟨_, rfl, by decide⟩, ⟨_, rfl, by decide⟩, ⟨_, rfl, by decide⟩⟩

/-- Every command completes with an error somewhere. -/
theorem witness_error :
    (∃ t, exec .vlen (vencOn (2 ^ 62) 0) = .next t ∧ t.statusCode = 0x02) ∧
    (∃ t, exec .venc (vencOn 64 1) = .next t ∧ t.statusCode = 0x01) ∧
    (∃ t, exec .vdec (onInput 0 [0x40]) = .next t ∧ t.statusCode = 0x01) ∧
    (∃ t, exec .fhdec (onInput 0 [0x04]) = .next t ∧ t.statusCode = 0x21) ∧
    (∃ t, exec .fhenc (fhencOn 4 0 1) = .next t ∧ t.statusCode = 0x11) ∧
    (∃ t, exec .fdec (onInput 0 [0x00, 0x3F]) = .next t ∧ t.statusCode = 0x12) :=
  ⟨⟨_, rfl, by decide⟩, ⟨_, rfl, by decide⟩, ⟨_, rfl, by decide⟩, ⟨_, rfl, by decide⟩, ⟨_, rfl, by decide⟩, ⟨_, rfl, by decide⟩⟩

theorem witness_InvalidEncodingNeverOccurs : ∃ t, exec .vdec (onInput 0 [0xC0]) = .next t := ⟨_, rfl⟩

theorem witness_VencWritesTheCanonicalForm : ∃ t, exec .venc (vencOn 64 2) = .next t ∧ t.statusCode = 0x00 :=
  witness_success.2.1

theorem witness_CommandsKeepEverythingElse : ∃ t, exec .fdec (onInput 0 [0x04, 0x00]) = .next t :=
  witness_success.2.2.2.2.2.imp fun _ h => h.1

/-- The first byte written, the first and the last byte not written, for both encoders; an error; a decode. -/
theorem witness_EncodersWriteExactlyTheirBytes :
    (vencOn 64 2).outOff.toNat ≤ 1 ∧ 1 < (vencOn 64 2).outOff.toNat + tier (vencOn 64 2).valueIn.toNat ∧
    (vencOn 64 2).outOff.toNat + tier (vencOn 64 2).valueIn.toNat ≤ 2 ∧
    1 < (fhencOn 4 0 2).outOff.toNat + (tier (fhencOn 4 0 2).tyIn.toNat + tier (fhencOn 4 0 2).lenIn.toNat) ∧
    (fhencOn 4 0 2).outOff.toNat + (tier (fhencOn 4 0 2).tyIn.toNat + tier (fhencOn 4 0 2).lenIn.toNat) ≤ 2 ∧
    (∃ t, exec .venc (vencOn 64 2) = .next t ∧ t.statusCode = 0x00) ∧
    (∃ t, exec .fhenc (fhencOn 4 0 2) = .next t ∧ t.statusCode = 0x00) ∧
    (∃ t, exec .venc (vencOn 64 1) = .next t ∧ t.statusCode ≠ 0x00) ∧
    (∃ t, exec .vdec (onInput 0 [0x25]) = .next t) :=
  ⟨by decide, by decide, by decide, by decide, by decide, witness_success.2.1, witness_success.2.2.2.2.1,
   ⟨_, rfl, by decide⟩, ⟨_, rfl⟩⟩

theorem witness_FhencIsAtomic :
    (∃ t, exec .fhenc (fhencOn 4 0 2) = .next t) ∧ (∃ t, exec .fhenc (fhencOn 4 0 1) = .next t) := ⟨⟨_, rfl⟩, ⟨_, rfl⟩⟩

theorem witness_ErrorsArePrecise : ∃ t, exec .fhenc (fhencOn 4 0 1) = .next t ∧ t.statusCode ≠ 0x00 := ⟨_, rfl, by decide⟩

theorem witness_EachCommandHasItsCodes :
    (∃ t, exec .vlen (vencOn 5 0) = .next t) ∧ (∃ t, exec .venc (vencOn 5 0) = .next t) ∧ (∃ t, exec .vdec start = .next t) ∧
    (∃ t, exec .fhdec start = .next t) ∧ (∃ t, exec .fhenc start = .next t) ∧ (∃ t, exec .fdec start = .next t) ∧
    codeByte (varintErrorCode .valueTooLarge) = codeByte (varintErrorCode .valueTooLarge) ∧
    codeByte (frameErrorCode .bufferTooSmall) = codeByte (frameErrorCode .bufferTooSmall) :=
  ⟨⟨_, rfl⟩, ⟨_, rfl⟩, ⟨_, rfl⟩, ⟨_, rfl⟩, ⟨_, rfl⟩, ⟨_, rfl⟩, rfl, rfl⟩

theorem witness_UnproducedResultsAreZero :
    (∃ t, exec .vlen (vencOn 5 0) = .next t ∧ t.statusCode = 0x00) ∧
    (∃ t, exec .fhdec (onInput 0 [0x04, 0x00]) = .next t ∧ t.statusCode = 0x00) :=
  ⟨witness_success.1, witness_success.2.2.2.1⟩

theorem witness_WindowErrorExactlyWhenIllegal :
    (¬ ({ start with inOff := 64, inLen := 1 } : State).InWindow) ∧ ({ start with inOff := 64 } : State).InWindow ∧
    (¬ ({ start with outOff := 60, outCap := 5 } : State).OutWindow) ∧ ({ start with outOff := 60, outCap := 4 } : State).OutWindow ∧
    (∃ t, exec .vdec { start with inOff := 64 } = .next t) ∧ (∃ t, exec .venc { start with outOff := 60, outCap := 4 } = .next t) ∧
    (∃ t, exec .vlen start = .next t) :=
  ⟨by decide, by decide, by decide, by decide, ⟨_, rfl⟩, ⟨_, rfl⟩, ⟨_, rfl⟩⟩

theorem witness_UnwrittenInputFaults :
    ({ start with inLen := 1 } : State).InWindow ∧ VarintReadsUnwritten ({ start with inLen := 1 } : State).inBuf 0 1 ∧
    HeaderReadsUnwritten (onInput 0 [0x04]).inBuf 0 2 ∧ start.params.wf = true ∧ 63 < start.params.inMax ∧
    63 < start.params.outMax ∧ start.inBuf.read 63 = none ∧ start.outBuf.read 63 = none :=
  ⟨by decide, ⟨by decide, .inl rfl⟩, .inr ⟨0x04, rfl, by decide, by decide, by decide, .inl rfl⟩, by decide, by decide,
   by decide, rfl, rfl⟩

/-- Two states that differ in CMD, STATUS, OUT and a result, and agree on everything a command reads. -/
theorem witness_CommandsDependOnlyOnTheirInputs :
    let s := onInput 0 [0x25]
    let u : State := { s with cmd := 9, statusCode := 0, resValue := 5, outBuf := [(0, 0xAA)] }
    s ≠ u ∧ s.params = u.params ∧ s.valueIn = u.valueIn ∧ s.tyIn = u.tyIn ∧ s.lenIn = u.lenIn ∧ s.inOff = u.inOff ∧
      s.inLen = u.inLen ∧ s.outOff = u.outOff ∧ s.outCap = u.outCap ∧ ∀ j, s.inBuf.read j = u.inBuf.read j :=
  ⟨by decide, rfl, rfl, rfl, rfl, rfl, rfl, rfl, rfl, fun _ => rfl⟩

theorem witness_VarintResultsFit : ∃ t, exec .venc (vencOn (2 ^ 62 - 1) 8) = .next t ∧ t.statusCode = 0x00 :=
  ⟨_, rfl, by decide⟩

theorem witness_FrameResultsFit :
    start.params.wf = true ∧ (∃ t, exec .fhdec (onInput 0 [0x04, 0x00]) = .next t) ∧
    (∃ t, exec .fdec (onInput 62 [0x04, 0x00]) = .next t ∧ t.statusCode = 0x00) :=
  ⟨by decide, ⟨_, rfl⟩, ⟨_, rfl, by decide⟩⟩

theorem witness_PayloadLocation :
    (onInput 5 [0x04, 0x03, 0xAA, 0xBB, 0xCC]).params.wf = true ∧
    ∃ t, exec .fdec (onInput 5 [0x04, 0x03, 0xAA, 0xBB, 0xCC]) = .next t ∧ t.statusCode = 0x00 :=
  ⟨by decide, ⟨_, rfl, by decide⟩⟩

/-- The payload bytes of the second buffer are unwritten. -/
theorem witness_FdecReadsNoPayloadByte :
    (onInput 0 [0x04, 0x03, 0xAA, 0xBB, 0xCC]).params.wf = true ∧
    ∃ t, exec .fdec (onInput 0 [0x04, 0x03, 0xAA, 0xBB, 0xCC]) = .next t ∧ t.statusCode = 0x00 ∧ t.resPayloadOff.toNat = 2 ∧
      ∀ j < 2, Memory.read [(0, 0x04), (1, 0x03)] j = (onInput 0 [0x04, 0x03, 0xAA, 0xBB, 0xCC]).inBuf.read j :=
  ⟨by decide, ⟨_, rfl, by decide, by decide, by decide⟩⟩

theorem witness_TruncatedHeaderIsWrapped :
    frameHeaderDecode [0x04, 0x40] = .error (.varint .bufferTooSmall) ∧
    (∃ t, exec .fhenc (fhencOn 4 0 1) = .next t ∧ t.statusCode = 0x11) ∧
    (∃ t, exec .fhdec (onInput 0 [0x04]) = .next t ∧ t.statusCode = 0x21) :=
  ⟨rfl, witness_error.2.2.2.2.1, witness_error.2.2.2.1⟩

theorem witness_FhdecAndFdecAgree :
    (∃ t, exec .fdec (onInput 0 [0x04, 0x00]) = .next t ∧ t.statusCode = 0x00) ∧
    (∃ u, exec .fhdec (onInput 0 [0x04]) = .next u ∧ u.statusCode ≠ 0x00) :=
  ⟨witness_success.2.2.2.2.2, ⟨_, rfl, by decide⟩⟩

theorem witness_busy_and_idle : start.busy = false ∧ (inFlight 0x1).busy = true ∧ start.params.wf = true := by decide

theorem witness_CmdWriteStartsACommand : start.busy = false ∧ (inFlight 0x1).busy = true := by decide

theorem witness_OperandWritesStoreTheValue : start.busy = false := rfl

/-- The areas' first and last offsets, for IN_MAX = OUT_MAX = 64. -/
theorem witness_RegisterMap :
    Params.wf ⟨0, 64, 64⟩ = true ∧ 0x078 ≤ 0x078 ∧ 0x078 % 8 = 0 ∧ 0xFF8 < 0x1000 ∧ 0xFF8 % 8 = 0 ∧ 0x1000 ≤ 0x1000 ∧
    0xFFFF < 0x10000 ∧ 63 < (⟨0, 64, 64⟩ : Params).inMax ∧ (⟨0, 64, 64⟩ : Params).inMax ≤ 64 ∧
    63 < (⟨0, 64, 64⟩ : Params).outMax ∧ (⟨0, 64, 64⟩ : Params).outMax ≤ 64 := by decide

/-- The last clause at both ends of each reserved area from 0x1000 on, for IN_MAX = OUT_MAX = 64. -/
theorem witness_RegisterAccessRules :
    (0xFFF < 0x1000 ∧ ¬ (8 = 8 ∧ 0xFFF % 8 = 0)) ∧ (0x000 < 0x1000 ∧ ¬ (4 = 8 ∧ 0x000 % 8 = 0)) ∧
    0x070 ∈ [0x008, 0x048, 0x050, 0x058, 0x060, 0x068, 0x070] ∧ (0x078 ≤ 0xFF8 ∧ 0xFF8 < 0x1000 ∧ 0xFF8 % 8 = 0) ∧
    0x040 ∈ [0x000, 0x010, 0x018, 0x020, 0x028, 0x030, 0x038, 0x040] ∧ start.busy = false ∧
    (start.resPayloadLen, 0x070) ∈ [(start.resValue, 0x048), (start.resPayloadLen, 0x070)] ∧ start.params.wf = true ∧
    (0x1000 ≤ 0x1000 ∧ 0x1000 + 8 ≤ 0x10000) ∧ (0x1000 ≤ 0xFFFF ∧ 0xFFFF + 1 ≤ 0x10000) ∧
    (0x10000 + start.params.inMax ≤ 0x10040 ∧ 0x10040 + 8 ≤ 0x20000) ∧ 0x1FFFF + 1 ≤ 0x20000 ∧
    (0x20000 + start.params.outMax ≤ 0x20040 ∧ 0x20040 + 1 ≤ 0x30000) ∧ 0x2FFFF + 1 ≤ 0x30000 := by decide

/-- The three ways STATUS changes. -/
theorem witness_OnlyCommandsWriteStatus :
    (∃ t, step { start with agenda := [.host (.write 8 0x000 0x1)] } = .next t ∧ t.busy ≠ start.busy) ∧
    (∃ t, step { inFlight 0x1 with agenda := [.reset] } = .next t ∧ t.busy ≠ (inFlight 0x1).busy) ∧
    (∃ t, step (inFlight 0x1) = .next t ∧ t.busy ≠ (inFlight 0x1).busy) :=
  ⟨⟨_, rfl, by decide⟩, ⟨_, rfl, by decide⟩, ⟨_, rfl, by decide⟩⟩

theorem witness_WriteWhileBusyFaults :
    (inFlight 0x1).params.wf = true ∧ (inFlight 0x1).busy = true ∧
    0x040 ∈ [0x000, 0x010, 0x018, 0x020, 0x028, 0x030, 0x038, 0x040] ∧ 63 < (inFlight 0x1).params.inMax ∧
    63 < (inFlight 0x1).params.outMax ∧ 0x1000 ≤ 0x1000 ∧ 0xFFFF < 0x10000 ∧
    0x10000 + (inFlight 0x1).params.inMax ≤ 0x10040 ∧ 0x1FFFF < 0x20000 ∧
    0x20000 + (inFlight 0x1).params.outMax ≤ 0x20040 ∧ 0x2FFFF < 0x30000 := by decide

theorem witness_RegisterReadsWhileBusy :
    (inFlight 0x1).Inv ∧ (inFlight 0x1).busy = true ∧
    ((inFlight 0x1).outCap, 0x040) ∈ [((inFlight 0x1).cmd, 0x000), ((inFlight 0x1).outCap, 0x040)] ∧
    0x070 ∈ [0x048, 0x050, 0x058, 0x060, 0x068, 0x070] :=
  ⟨inFlight_inv 0x1 [], rfl, by decide, by decide⟩

theorem witness_BufferReads :
    (onInput 63 [0xAA]).params.wf = true ∧ 63 < (onInput 63 [0xAA]).params.inMax ∧
    (onInput 63 [0xAA]).inBuf.read 63 = some 0xAA ∧ (onInput 63 [0xAA]).inBuf.read 0 = none ∧
    (vencOn 0 0).busy = false ∧ (vencOn 0 0).outBuf.read 7 = some 0xAA ∧ (vencOn 0 0).outBuf.read 8 = none ∧
    (inFlight 0x1).busy = true := by decide

theorem witness_BuffersAreDisjoint :
    start.params.wf = true ∧ 63 < start.params.inMax ∧ 63 < start.params.outMax ∧ start.busy = false ∧
    (∃ t, exec .venc (vencOn 64 2) = .next t) := ⟨by decide, by decide, by decide, rfl, ⟨_, rfl⟩⟩

/-- An 8-byte access that only reaches the first IN byte, and a 2-byte one at the last OUT byte. -/
theorem witness_WideBufferAccessRefused :
    start.params.wf = true ∧ 8 ≠ 1 ∧ 0xFFF9 ≤ 0x10000 ∧ 0x10000 ≤ 0xFFF9 + (8 - 1) ∧ 0x10000 < 0x10000 + start.params.inMax ∧
    0x2003F ≤ 0x2003F ∧ 0x2003F ≤ 0x2003F + (2 - 1) ∧ 0x2003F < 0x20000 + start.params.outMax ∧ 63 < start.params.inMax ∧
    63 < start.params.outMax ∧ start.busy = false := by
  decide

theorem witness_OnlyCmdWritesHaveSideEffects :
    (∃ t, hostAccess (.read 8 0x060) (inFlight 0x1) = .next t) ∧
    (∃ t, hostAccess (.write 1 0x10000 0xAA) start = .next t) ∧ 0x10000 ≠ start.params.base + 0x000 :=
  ⟨⟨_, rfl⟩, ⟨_, rfl⟩, by decide⟩

/-- A host write to OUT between commands; and a VENC that changes OUT. -/
theorem witness_ResultsAreStable :
    (∃ t, step { start with agenda := [.host (.write 1 0x20000 0xAA)] } = .next t ∧ start.pending = none ∧ t.pending = none ∧
      t.outBuf ≠ start.outBuf) ∧
    (∃ t, step (startCommand 0x2 (vencOn 64 2)) = .next t ∧ (startCommand 0x2 (vencOn 64 2)).agenda = [] ∧
      t.outBuf ≠ (vencOn 64 2).outBuf) :=
  ⟨⟨_, rfl, rfl, rfl, by decide⟩, ⟨_, rfl, rfl, by decide⟩⟩

/-- The view IN[2..5): the byte before it, its first byte, the byte after it. -/
theorem witness_PayloadViewFollowsTheBuffer :
    let s : State := { onInput 0 [0x04, 0x03] with resPayloadOff := 2, resPayloadLen := 3 }
    s.params.wf = true ∧ 5 < s.params.inMax ∧ s.busy = false ∧
    (∃ t, hostAccess (.write 1 (s.params.base + 0x10000 + 2) ((0x7E : Byte).setWidth 64)) s = .next t) ∧
    1 < s.resPayloadOff.toNat ∧ s.resPayloadOff.toNat + s.resPayloadLen.toNat ≤ 5 ∧
    0 < s.resPayloadLen.toNat ∧ 2 = s.resPayloadOff.toNat + 0 :=
  ⟨by decide, by decide, rfl, ⟨_, rfl⟩, by decide, by decide, by decide, by decide⟩

theorem witness_ResetValues : start ∈ [start, assertReset start] ∧ State.reset ∈ [State.reset, assertReset start] := by simp

theorem witness_ResetAbandonsTheCommand :
    ({ inFlight 0x2 with agenda := [.reset] } : State).agenda = .reset :: [] ∧ (inFlight 0x2).busy = true := ⟨rfl, rfl⟩

theorem witness_StepKeepsTheInvariant :
    (inFlight 0x1).Inv ∧ (∃ t, step (inFlight 0x1) = .next t) ∧ start.Inv ∧ (∃ t, step start = .next t) :=
  ⟨inFlight_inv 0x1 [], ⟨_, rfl⟩, start_inv, ⟨_, rfl⟩⟩

/-- With no entry of the agenda before the completion, and with one. -/
theorem witness_NoCommandStaysInFlight :
    (inFlight 0x1).Inv ∧ (∃ t, Runs 1 (inFlight 0x1) t) ∧
    State.Inv { inFlight 0x1 with agenda := [.host (.read 8 0x008)] } ∧
    (∃ t, Runs 2 { inFlight 0x1 with agenda := [.host (.read 8 0x008)] } t) :=
  ⟨inFlight_inv 0x1 [], ⟨_, rfl⟩, inFlight_inv 0x1 _, ⟨_, rfl⟩⟩

/-- With one poll before the completion and none; with an access between the completion and the STATUS read and none; from the CMD
write with one poll and a read of RES_COUNT, and with neither; and an end of a command. -/
theorem witness_PollingSeesTheCompletion :
    (let s : State := { inFlight 0x1 with agenda := [.host (.read 8 0x008), .completion, .host (.write 8 0x010 5), .host (.read 8 0x008)] }
     s.Inv ∧ s.busy = true ∧ s.agenda = [Access.read 8 0x008].map .host ++ .completion :: ([Access.write 8 0x010 5].map .host ++
       .host (.read 8 (s.params.base + 0x008)) :: []) ∧ (∀ v, Access.write 8 (s.params.base + 0x000) v ∉ [Access.write 8 0x010 5]) ∧
       ∃ t, Runs (1 + (1 + 2)) s t) ∧
    (let s : State := { inFlight 0x1 with agenda := [.completion, .host (.read 8 0x008)] }
     s.Inv ∧ s.busy = true ∧ s.agenda = ([] : List Access).map .host ++ .completion :: (([] : List Access).map .host ++
       .host (.read 8 (s.params.base + 0x008)) :: []) ∧ ∃ t, Runs (0 + (0 + 2)) s t) ∧
    (let s : State := { start with agenda := [.host (.write 8 0x000 0x1), .host (.read 8 0x008), .completion, .host (.read 8 0x060), .host (.read 8 0x008)] }
     s.busy = false ∧ s.agenda = .host (.write 8 (s.params.base + 0x000) 0x1) :: ([Access.read 8 0x008].map .host ++
       .completion :: ([Access.read 8 0x060].map .host ++ .host (.read 8 (s.params.base + 0x008)) :: [])) ∧
       (∀ v, Access.write 8 (s.params.base + 0x000) v ∉ [Access.read 8 0x060]) ∧
       Access.read 8 (s.params.base + 0x008) ∉ [Access.read 8 0x060] ∧ ∃ t, Runs (1 + (1 + 3)) s t) ∧
    (let s : State := { start with agenda := [.host (.write 8 0x000 0x1), .completion, .host (.read 8 0x008)] }
     ∃ t, CommandEnds 0x1 s 2 t) := by
  refine ⟨⟨inFlight_inv 0x1 _, rfl, rfl, ?_, ⟨_, rfl⟩⟩, ⟨inFlight_inv 0x1 _, rfl, rfl, ⟨_, rfl⟩⟩,
    ⟨rfl, rfl, ?_, by decide, ⟨_, rfl⟩⟩, ⟨_, ⟨rfl, _, rfl⟩, rfl, ⟨_, rfl, _, _, _, rfl, rfl, rfl, by decide⟩, ?_⟩⟩
  · intro v h; cases h with | tail _ h => cases h
  · intro v h; cases h with | tail _ h => cases h
  · intro k hk u hu
    match k, hk with
    | 0, _ => cases hu; rintro ⟨_, _, _, h, _⟩; cases h
    | 1, _ => cases hu; rintro ⟨_, _, _, h, _⟩; cases h

theorem witness_HostLinesAreBusAccesses : 2 ^ 64 - 1 < 2 ^ 64 ∧ 255 < 256 := by decide

end Sys2Proof.Tests
end

section
/-! PROOFS. What a completed command leaves in the result registers, and the invariant of the block: it holds at reset and
every kind of step keeps it (10_state.md R24, R27, R28, R32; 40_varint.md R114; 41_frame.md R139, R143). -/

namespace Sys2Proof.Machine

/-! ### Bounds on what the decoders return -/

/-- The lengths of a varint (R74). -/
def varintLengths : List Nat := [1, 2, 4, 8]

/-- The lengths of a frame header, two varints (R80). -/
def headerLengths : List Nat := [2, 3, 4, 5, 6, 8, 9, 10, 12, 16]

theorem add_mem_headerLengths : ∀ a ∈ varintLengths, ∀ b ∈ varintLengths, a + b ∈ headerLengths := by decide

theorem le_of_mem_varintLengths : ∀ L ∈ varintLengths, L ≤ 8 := by decide

theorem le_of_mem_headerLengths : ∀ n ∈ headerLengths, n ≤ 16 := by decide

theorem tier_mem_varintLengths (v : Nat) : tier v ∈ varintLengths := by
  simpa [varintLengths] using tier_cases v

theorem varintDecode_length_mem {bs : List Byte} {v L : Nat} (h : varintDecode bs = .ok (v, L)) : L ∈ varintLengths := by
  simpa [varintLengths] using varintDecode_ok_length h

/-- Six value bits of the first byte and at most seven bytes more: a decoded value lies in the varint domain (R73, R114). -/
theorem varintDecode_value_le {bs : List Byte} {v L : Nat} (h : varintDecode bs = .ok (v, L)) : v ≤ max62 := by
  have hL8 : L ≤ 8 := le_of_mem_varintLengths L (varintDecode_length_mem h)
  obtain ⟨b, rest, -, -, -, rfl⟩ := varintDecode_ok h
  have htop : (topValueField b).toNat < 64 := (topValueField b).isLt
  have hlow := valueOf_lt (rest.take (L - 1))
  have hpow : 256 ^ (rest.take (L - 1)).length ≤ 256 ^ 7 :=
    Nat.pow_le_pow_right (by decide) (by rw [List.length_take]; omega)
  rw [assembleValue_eq, max62]
  calc (topValueField b).toNat * 256 ^ (rest.take (L - 1)).length + valueOf (rest.take (L - 1))
      ≤ 63 * 256 ^ (rest.take (L - 1)).length + valueOf (rest.take (L - 1)) := by gcongr; omega
    _ ≤ 2 ^ 62 - 1 := by omega

theorem frameHeaderDecode_bounds {bs : List Byte} {h : FrameHeader} {n : Nat} (hd : frameHeaderDecode bs = .ok (h, n)) :
    h.ty ≤ max62 ∧ h.len ≤ max62 ∧ n ∈ headerLengths := by
  obtain ⟨a, b, hty, hlen, rfl⟩ := frameHeaderDecode_ok hd
  exact ⟨varintDecode_value_le hty, varintDecode_value_le hlen,
    add_mem_headerLengths a (varintDecode_length_mem hty) b (varintDecode_length_mem hlen)⟩

/-! ### What each command produces -/

/-- The results command `i` may leave on success: the registers it produces, with their bounds, every other one 0 (R28). -/
inductive Produces (p : Params) : Instr → Results → Prop where
  | vlen {L : Nat} (hL : L ∈ varintLengths) : Produces p .vlen { count := L }
  | venc {L : Nat} (hL : L ∈ varintLengths) : Produces p .venc { count := L }
  | vdec {v L : Nat} (hv : v ≤ max62) (hL : L ∈ varintLengths) : Produces p .vdec { value := v, count := L }
  | fhdec {ty len n : Nat} (hty : ty ≤ max62) (hlen : len ≤ max62) (hn : n ∈ headerLengths) :
      Produces p .fhdec { ty := ty, len := len, count := n }
  | fhenc {n : Nat} (hn : n ∈ headerLengths) : Produces p .fhenc { count := n }
  | fdec {ty len n off : Nat} (hty : ty ≤ max62) (hlen : len ≤ max62) (hview : off + n + len ≤ p.inMax) :
      Produces p .fdec { ty := ty, len := len, count := n + len, payloadOff := off + n, payloadLen := len }

/-- How a command can end: an error completion with one of R160's codes, a normal completion with the results it may produce
after storing bytes inside OUT, or the fault on unwritten input (R201). -/
inductive CommandEnd (i : Instr) (s : State) : Host.Outcome State Fault Refusal → Prop where
  | error {c : Code} (hne : c ≠ .ok) (hlist : codeByte c ∈ idleCodes) : CommandEnd i s (.next (raise c s))
  | success {r : Results} {bs : List Byte} (hr : Produces s.params i r)
      (hfit : bs = [] ∨ s.outOff.toNat + bs.length ≤ s.params.outMax) :
      CommandEnd i s (.next (complete r (storeOut s.outOff.toNat bs s)))
  | unwritten : CommandEnd i s (.fault .readUnwrittenInput)

/-- A success that stores nothing. -/
theorem CommandEnd.success_noStore {i : Instr} {s : State} {r : Results} (hr : Produces s.params i r) :
    CommandEnd i s (.next (complete r s)) :=
  .success (bs := []) hr (.inl rfl)

theorem execVlen_end (s : State) : CommandEnd .vlen s (execVlen s) := by
  rcases execVlen_cases s with ⟨-, h⟩ | ⟨-, h⟩ <;> rw [h]
  · exact .error (by decide) (by decide)
  · exact .success_noStore (.vlen (tier_mem_varintLengths _))

theorem execVenc_end (s : State) : CommandEnd .venc s (execVenc s) := by
  rcases execVenc_cases s with ⟨-, h⟩ | ⟨-, -, h⟩ | ⟨-, -, -, h⟩ | ⟨hw, -, hc, h⟩ <;> rw [h]
  · exact .error (by decide) (by decide)
  · exact .error (by decide) (by decide)
  · exact .error (by decide) (by decide)
  · exact .success (.venc (tier_mem_varintLengths _)) (.inr (by rw [varintBytes_length]; omega))

theorem execVdec_end (s : State) : CommandEnd .vdec s (execVdec s) := by
  rcases execVdec_cases s with ⟨-, h⟩ | ⟨-, -, h⟩ | ⟨-, _, -, -, h⟩ | ⟨-, _, _, _, -, hd, h⟩ <;> rw [h]
  · exact .error (by decide) (by decide)
  · exact .unwritten
  · exact .error (by decide) (by decide)
  · exact .success_noStore (.vdec (varintDecode_value_le hd) (varintDecode_length_mem hd))

theorem execFhdec_end (s : State) : CommandEnd .fhdec s (execFhdec s) := by
  rcases execFhdec_cases s with ⟨-, h⟩ | ⟨-, -, h⟩ | ⟨-, _, -, -, h⟩ | ⟨-, _, _, _, -, hd, h⟩ <;> rw [h]
  · exact .error (by decide) (by decide)
  · exact .unwritten
  · exact .error (by decide) (by decide)
  · obtain ⟨hty, hlen, hn⟩ := frameHeaderDecode_bounds hd
    exact .success_noStore (.fhdec hty hlen hn)

theorem execFhenc_end (s : State) : CommandEnd .fhenc s (execFhenc s) := by
  rcases execFhenc_cases s with ⟨-, h⟩ | ⟨-, -, h⟩ | ⟨-, -, -, -, h⟩ | ⟨hw, -, -, hc, h⟩ <;> rw [h]
  · exact .error (by decide) (by decide)
  · exact .error (by decide) (by decide)
  · exact .error (by decide) (by decide)
  · exact .success (.fhenc (add_mem_headerLengths _ (tier_mem_varintLengths _) _ (tier_mem_varintLengths _)))
      (.inr (by rw [List.length_append, varintBytes_length, varintBytes_length]; omega))

/-- The payload lies in the slice the window names, because the header was read from that slice (R137, R139). -/
theorem execFdec_end (s : State) : CommandEnd .fdec s (execFdec s) := by
  rcases execFdec_cases s with ⟨-, h⟩ | ⟨-, -, h⟩ | ⟨-, _, -, -, h⟩ | ⟨hw, _, _, _, hr, hd, ⟨-, h⟩ | ⟨hl, h⟩⟩ <;> rw [h]
  · exact .error (by decide) (by decide)
  · exact .unwritten
  · exact .error (by decide) (by decide)
  · exact .error (by decide) (by decide)
  · obtain ⟨hty, hlen, -⟩ := frameHeaderDecode_bounds hd
    obtain ⟨-, -, hn, -⟩ := headerBytesRead_decode_ok hr hd
    rw [inSlice, memRead_length] at hn
    exact .success_noStore (.fdec hty hlen (by omega))

/-- Everything a command can end with, for all six. -/
theorem exec_end (i : Instr) (s : State) : CommandEnd i s (exec i s) := by
  cases i with
  | vlen => exact execVlen_end s
  | venc => exact execVenc_end s
  | vdec => exact execVdec_end s
  | fhdec => exact execFhdec_end s
  | fhenc => exact execFhenc_end s
  | fdec => exact execFdec_end s

/-! ### The completion step by cases -/

theorem completionStep_of_decode {s : State} {w : Word} {i : Instr} (hp : s.pending = some w) (hd : decode w = .ok i) :
    completionStep s = exec i s := by
  simp only [completionStep, hp, hd]

theorem completionStep_of_illegal {s : State} {w : Word} {e : DecodeError} (hp : s.pending = some w)
    (hd : decode w = .error e) : completionStep s = .next (raise .illegalCommand s) := by
  simp only [completionStep, hp, hd]

/-- A completion step does nothing with nothing in flight, runs the command a legal word decodes to, and ends an illegal word
with 0xF1 (R27, R161). -/
theorem completionStep_cases (s : State) :
    (s.pending = none ∧ completionStep s = .next s) ∨
    (∃ w, s.pending = some w ∧
      ((∃ i, decode w = .ok i ∧ completionStep s = exec i s) ∨
       ((∃ e, decode w = .error e) ∧ completionStep s = .next (raise .illegalCommand s)))) := by
  cases hp : s.pending with
  | none => exact .inl ⟨rfl, by simp only [completionStep, hp]⟩
  | some w =>
    refine .inr ⟨w, rfl, ?_⟩
    cases hd : decode w with
    | ok i => exact .inl ⟨i, rfl, completionStep_of_decode hp hd⟩
    | error e => exact .inr ⟨⟨e, rfl⟩, completionStep_of_illegal hp hd⟩

/-! ### The invariant, operation by operation -/

/-- Results that fit their registers as the invariant asks (R114, R139, R143). -/
structure Results.Fits (r : Results) (p : Params) : Prop where
  value : r.value ≤ max62
  ty : r.ty ≤ max62
  len : r.len ≤ max62
  count : r.count ≤ 65536
  view : r.payloadOff + r.payloadLen ≤ p.inMax

theorem Results.zero_fits (p : Params) : Results.Fits {} p :=
  ⟨Nat.zero_le _, Nat.zero_le _, Nat.zero_le _, Nat.zero_le _, Nat.zero_le _⟩

theorem Produces.fits {p : Params} {i : Instr} {r : Results} (hp : p.wf = true) (h : Produces p i r) : r.Fits p := by
  have hz := Results.zero_fits p
  cases h with
  | vlen hL | venc hL => exact { hz with count := (le_of_mem_varintLengths _ hL).trans (by decide) }
  | vdec hv hL => exact { hz with value := hv, count := (le_of_mem_varintLengths _ hL).trans (by decide) }
  | fhdec hty hlen hn =>
    exact { hz with ty := hty, len := hlen, count := (le_of_mem_headerLengths _ hn).trans (by decide) }
  | fhenc hn => exact { hz with count := (le_of_mem_headerLengths _ hn).trans (by decide) }
  | @fdec ty len n off hty hlen hview =>
    obtain ⟨-, -, hmax, -, -⟩ := (Params.wf_iff p).1 hp
    exact { hz with ty := hty, len := hlen, count := (by omega : n + len ≤ 65536), view := hview }

theorem toNat_ofNat_le (n : Nat) : (BitVec.ofNat 64 n).toNat ≤ n := by
  rw [BitVec.toNat_ofNat]
  exact Nat.mod_le _ _

/-- A completion keeps the invariant if its code is a listed one, its results fit, and an error code comes with no result. -/
theorem State.Inv.finish {s : State} (h : s.Inv) {c : Code} {r : Results} (hc : codeByte c ∈ idleCodes)
    (hr : r.Fits s.params) (herr : codeByte c ≠ codeByte .ok → r = {}) : (finish c r s).Inv :=
  { h with
    busy := rfl
    inFlight := nofun
    idleCode := fun _ => hc
    errorZero := fun _ hne => by
      rw [herr hne]
      exact ⟨rfl, rfl, rfl, rfl, rfl, rfl⟩
    values := ⟨(toNat_ofNat_le _).trans hr.value, (toNat_ofNat_le _).trans hr.ty, (toNat_ofNat_le _).trans hr.len⟩
    count := (toNat_ofNat_le _).trans hr.count
    view := (Nat.add_le_add (toNat_ofNat_le _) (toNat_ofNat_le _)).trans hr.view }

theorem State.Inv.raise {s : State} (h : s.Inv) {c : Code} (hc : codeByte c ∈ idleCodes) : (raise c s).Inv :=
  h.finish hc (Results.zero_fits _) fun _ => rfl

theorem State.Inv.complete {s : State} (h : s.Inv) {r : Results} (hr : r.Fits s.params) : (complete r s).Inv :=
  h.finish (by decide) hr fun hne => absurd rfl hne

/-- Bytes stored inside OUT keep its canonical form and its size. -/
theorem State.Inv.storeOut {s : State} (h : s.Inv) {a : Nat} {bs : List Byte}
    (hfit : bs = [] ∨ a + bs.length ≤ s.params.outMax) : (storeOut a bs s).Inv := by
  obtain ⟨hwf, hwithin⟩ := h.outForm
  refine { h with outForm := ⟨wf_memWrite hwf a bs, ?_⟩ }
  rcases hfit with rfl | hfit
  · exact hwithin
  · exact within_memWrite hwithin bs a hfit

theorem State.Inv.exec {i : Instr} {s t : State} (h : s.Inv) (he : exec i s = .next t) : t.Inv := by
  have hend := exec_end i s
  rw [he] at hend
  cases hend with
  | error _ hlist => exact h.raise hlist
  | success hr hfit => exact (h.storeOut hfit).complete (hr.fits h.params)

theorem State.Inv.completionStep {s t : State} (h : s.Inv) (hs : completionStep s = .next t) : t.Inv := by
  rcases completionStep_cases s with ⟨-, hc⟩ | ⟨w, -, ⟨i, -, hc⟩ | ⟨-, hc⟩⟩ <;> rw [hc] at hs
  · cases hs; exact h
  · exact h.exec hs
  · cases hs; exact h.raise (by decide)

/-- The invariant does not look at what the model holds of the host. -/
theorem State.Inv.hostFields {s : State} (h : s.Inv) (es : List Event) (d : Option Word) (k : Nat) :
    State.Inv { s with agenda := es, readData := d, draws := k } :=
  { h with }

theorem State.Inv.startCommand {s : State} (h : s.Inv) (w : Word) : (startCommand w s).Inv :=
  { h with
    busy := rfl
    inFlight := fun _ hw => ⟨Option.some.inj hw, rfl⟩
    idleCode := nofun
    errorZero := nofun }

/-- A CMD write starts a command; the invariant does not look at the operand and window registers. -/
theorem State.Inv.writeReg {s : State} (h : s.Inv) (r : Reg) (v : Word) : (writeReg r v s).Inv := by
  cases r with
  | cmd => exact h.startCommand v
  | _ => exact { h with }

theorem State.Inv.writeIn {s : State} (h : s.Inv) {i : Nat} (hi : i < s.params.inMax) (b : Byte) :
    State.Inv { s with inBuf := s.inBuf.write i b } :=
  { h with inForm := ⟨Memory.wf_write h.inForm.1 i b, Memory.within_write h.inForm.2 hi b⟩ }

theorem State.Inv.writeOut {s : State} (h : s.Inv) {j : Nat} (hj : j < s.params.outMax) (b : Byte) :
    State.Inv { s with outBuf := s.outBuf.write j b } :=
  { h with outForm := ⟨Memory.wf_write h.outForm.1 j b, Memory.within_write h.outForm.2 hj b⟩ }

theorem State.Inv.hostAccess {a : Access} {s t : State} (h : s.Inv) (ha : hostAccess a s = .next t) : t.Inv := by
  rcases hostAccess_next ha with ⟨_, _, d, k, -, rfl⟩ | ⟨_, _, v, -, rfl | ⟨-, r, -, -, -, rfl⟩ | ⟨-, i, -, -, hi, rfl⟩ |
    ⟨-, j, -, -, hj, rfl⟩⟩
  · exact h.hostFields s.agenda d k
  · exact h
  · exact h.writeReg r v
  · exact h.writeIn hi _
  · exact h.writeOut hj _

/-- The reset state meets the invariant with any legal parameters. -/
theorem inv_reset_with {p : Params} (hp : p.wf = true) : State.Inv { State.reset with params := p } where
  params := hp
  busy := rfl
  inFlight := nofun
  idleCode := fun _ => (by decide : codeByte .none ∈ idleCodes)
  errorZero := fun _ _ => ⟨rfl, rfl, rfl, rfl, rfl, rfl⟩
  inForm := ⟨.nil, nofun⟩
  outForm := ⟨.nil, nofun⟩
  values := ⟨Nat.zero_le _, Nat.zero_le _, Nat.zero_le _⟩
  count := Nat.zero_le _
  view := Nat.zero_le _

theorem State.Inv.assertReset {s : State} (h : s.Inv) : (assertReset s).Inv :=
  (inv_reset_with h.params).hostFields s.agenda s.readData s.draws

/-- Settles O56, by the four kinds of step, each of which keeps the invariant. -/
theorem stepKeepsTheInvariant : Obligations.StepKeepsTheInvariant := by
  intro s t h hstep
  rcases step_next hstep with ⟨-, hc⟩ | ⟨rest, -, hc⟩ | ⟨a, rest, -, ha⟩ | ⟨rest, -, rfl⟩
  · exact h.completionStep hc
  · exact (h.hostFields rest s.readData s.draws).completionStep hc
  · exact (h.hostFields rest s.readData s.draws).hostAccess ha
  · exact (h.hostFields rest s.readData s.draws).assertReset

/-- Settles O55: `State.reset` has the open parameters, and these are legal. -/
theorem resetMeetsTheInvariant : Obligations.ResetMeetsTheInvariant :=
  inv_reset_with Config.params_wf

end Sys2Proof.Machine
end

section
/-! PROOFS. The obligations of 10_state.md on results, on the register map and its access rules, on STATUS, on the buffers and
on reset. The rules of one access come first; the obligations are read off them. -/

namespace Sys2Proof.Machine

/-! ### Results a command does not produce -/

theorem Produces.value_eq_zero {p : Params} {i : Instr} {r : Results} (h : Produces p i r) (hi : i ≠ .vdec) :
    r.value = 0 := by
  cases h with
  | vdec => contradiction
  | _ => rfl

theorem Produces.header_eq_zero {p : Params} {i : Instr} {r : Results} (h : Produces p i r) (h1 : i ≠ .fhdec)
    (h2 : i ≠ .fdec) : r.ty = 0 ∧ r.len = 0 := by
  cases h with
  | fhdec | fdec => contradiction
  | _ => exact ⟨rfl, rfl⟩

theorem Produces.payload_eq_zero {p : Params} {i : Instr} {r : Results} (h : Produces p i r) (hi : i ≠ .fdec) :
    r.payloadOff = 0 ∧ r.payloadLen = 0 := by
  cases h with
  | fdec => contradiction
  | _ => exact ⟨rfl, rfl⟩

theorem Produces.count_mem_varintLengths {p : Params} {i : Instr} {r : Results} (h : Produces p i r)
    (hi : i = .vlen ∨ i = .venc ∨ i = .vdec) : r.count ∈ varintLengths := by
  cases h with
  | vlen hL | venc hL | vdec _ hL => exact hL
  | _ => simp at hi

theorem Produces.count_mem_headerLengths {p : Params} {i : Instr} {r : Results} (h : Produces p i r)
    (hi : i = .fhdec ∨ i = .fhenc) : r.count ∈ headerLengths := by
  cases h with
  | fhdec _ _ hn | fhenc hn => exact hn
  | _ => simp at hi

/-- OK is the only code whose number is 0x00 (R160). -/
theorem codeByte_eq_zero_iff {c : Code} : codeByte c = 0x00 ↔ c = .ok := by
  cases c <;> decide

theorem toNat_ofNat_mem {l : List Nat} {n : Nat} (hlt : n < 2 ^ 64) (h : n ∈ l) : (BitVec.ofNat 64 n).toNat ∈ l := by
  rwa [BitVec.toNat_ofNat, Nat.mod_eq_of_lt hlt]

/-- Settles O28: an error completion leaves only zeros, a normal one what `Produces` says of the command. -/
theorem unproducedResultsAreZero : Obligations.UnproducedResultsAreZero := by
  intro i s t h
  have hend := exec_end i s
  rw [h] at hend
  cases hend with
  | error hne _ =>
    have hcode : codeByte _ ≠ 0x00 := mt codeByte_eq_zero_iff.1 hne
    exact ⟨fun _ => rfl, fun _ _ => ⟨rfl, rfl⟩, fun _ => ⟨rfl, rfl⟩, fun h0 => absurd h0 hcode, fun h0 => absurd h0 hcode⟩
  | @success r bs hr _ =>
    refine ⟨fun hi => ?_, fun h1 h2 => ?_, fun hi => ?_, fun _ hi => ?_, fun _ hi => ?_⟩
    · simp [hr.value_eq_zero hi]
    · simp [hr.header_eq_zero h1 h2]
    · simp [hr.payload_eq_zero hi]
    · have hmem := hr.count_mem_varintLengths hi
      exact toNat_ofNat_mem ((le_of_mem_varintLengths _ hmem).trans_lt (by decide)) hmem
    · have hmem := hr.count_mem_headerLengths hi
      exact toNat_ofNat_mem ((le_of_mem_headerLengths _ hmem).trans_lt (by decide)) hmem

/-! ### Where an access lands -/

/-- Settles O39, area by area, by what `locate` says of each. -/
theorem registerMap : Obligations.RegisterMap := by
  intro p hp
  obtain ⟨-, -, hin, -, hout⟩ := (Params.wf_iff p).1 hp
  refine ⟨fun r off h => ?_, fun off h1 h2 h3 => locate_reservedReg h1 h2 h3, fun off h1 h2 => ?_,
    fun i hi => locate_inByte hp hi, fun i h1 h2 => ?_, fun j hj => locate_outByte hp hj, fun j h1 h2 => ?_⟩
  · obtain ⟨r', -, hr⟩ := List.mem_map.1 (show (r, off) ∈ allRegs.map fun r => (r, regOffset r) from h)
    cases hr
    exact locate_reg p r
  · exact locate_reserved h1 (by omega) (by simp [touches]; omega) (by simp [touches]; omega)
  · rw [Nat.add_assoc]
    exact locate_reserved (by omega) (by omega) (by simp [touches]; omega) (by simp [touches]; omega)
  · rw [Nat.add_assoc]
    exact locate_reserved (by omega) (by omega) (by simp [touches]; omega) (by simp [touches]; omega)

/-- An access to the register area of another shape than 64-bit and 8-aligned is refused (R21). -/
theorem locate_misshapen (p : Params) {bytes off : Nat} (hoff : off < 0x1000) (hshape : ¬ (bytes = 8 ∧ off % 8 = 0)) :
    ∃ r, locate p bytes (p.base + off) = .error r := by
  unfold locate
  split
  · exact ⟨.registerAccessShape, by rw [Nat.add_sub_cancel_left, locateOffset, if_pos hoff, if_neg hshape]⟩
  · exact ⟨_, rfl⟩

/-! ### What an access does, by where it lands -/

theorem hostAccess_read_of_locate {s : State} {bytes addr : Nat} {t : Target} (h : locate s.params bytes addr = .ok t) :
    hostAccess (.read bytes addr) s = .next (hostRead t s) := by
  simp only [hostAccess, h]

theorem hostAccess_write_of_locate {s : State} {bytes addr : Nat} {t : Target} (v : Word)
    (h : locate s.params bytes addr = .ok t) : hostAccess (.write bytes addr v) s = hostWrite t v s := by
  simp only [hostAccess, h]

theorem hostAccess_read_refused {s : State} {bytes addr : Nat} {r : Refusal} (h : locate s.params bytes addr = .error r) :
    hostAccess (.read bytes addr) s = .refused r := by
  simp only [hostAccess, h]

theorem hostAccess_write_refused {s : State} {bytes addr : Nat} {r : Refusal} (v : Word)
    (h : locate s.params bytes addr = .error r) : hostAccess (.write bytes addr v) s = .refused r := by
  simp only [hostAccess, h]

theorem hostAccess_read_reserved {s : State} {bytes addr : Nat} (h : locate s.params bytes addr = .ok .reserved) :
    hostAccess (.read bytes addr) s = .next { s with readData := some 0 } :=
  hostAccess_read_of_locate h

theorem hostAccess_write_reserved {s : State} {bytes addr : Nat} (v : Word)
    (h : locate s.params bytes addr = .ok .reserved) : hostAccess (.write bytes addr v) s = .next s :=
  hostAccess_write_of_locate v h

/-- A read of a register that is no result register, or of any register while BUSY = 0, returns its value (R21, R197). -/
theorem hostAccess_readReg {s : State} {r : Reg} (h : s.busy = false ∨ isResult r = false) :
    hostAccess (.read 8 (s.params.base + regOffset r)) s = .next { s with readData := some (readReg r s) } := by
  have hfree : (s.busy && isResult r) = false := by rcases h with h | h <;> simp [h]
  rw [hostAccess_read_of_locate (locate_reg _ r), hostRead, hfree]
  rfl

/-- A write to a RW register while BUSY = 0 (R23, R25, R26). -/
theorem hostAccess_writeReg {s : State} {r : Reg} (v : Word) (hw : isWritable r = true) (hb : s.busy = false) :
    hostAccess (.write 8 (s.params.base + regOffset r) v) s = .next (writeReg r v s) := by
  simp [hostAccess_write_of_locate v (locate_reg s.params r), hostWrite, hw, hb]

/-- A write to a RW register while BUSY = 1 (R196). -/
theorem hostAccess_writeReg_busy {s : State} {r : Reg} (v : Word) (hw : isWritable r = true) (hb : s.busy = true) :
    hostAccess (.write 8 (s.params.base + regOffset r) v) s = .fault .hazardWriteWhileBusy := by
  simp [hostAccess_write_of_locate v (locate_reg s.params r), hostWrite, hw, hb]

/-- A write to a RO register is ignored, busy or not (R21). -/
theorem hostAccess_writeReg_readOnly (s : State) {r : Reg} (v : Word) (hw : isWritable r = false) :
    hostAccess (.write 8 (s.params.base + regOffset r) v) s = .next s := by
  simp [hostAccess_write_of_locate v (locate_reg s.params r), hostWrite, hw]

/-- A byte write to IN while BUSY = 0 (R29). -/
theorem hostAccess_writeIn {s : State} {i : Nat} (v : Word) (hp : s.params.wf = true) (hi : i < s.params.inMax)
    (hb : s.busy = false) : hostAccess (.write 1 (s.params.base + 0x10000 + i) v) s =
      .next { s with inBuf := s.inBuf.write i (v.setWidth 8) } := by
  simp [hostAccess_write_of_locate v (locate_inByte hp hi), hostWrite, hb]

/-- A byte write to OUT while BUSY = 0 (R30). -/
theorem hostAccess_writeOut {s : State} {j : Nat} (v : Word) (hp : s.params.wf = true) (hj : j < s.params.outMax)
    (hb : s.busy = false) : hostAccess (.write 1 (s.params.base + 0x20000 + j) v) s =
      .next { s with outBuf := s.outBuf.write j (v.setWidth 8) } := by
  simp [hostAccess_write_of_locate v (locate_outByte hp hj), hostWrite, hb]

/-! ### Registers -/

theorem isResult_of_isWritable {r : Reg} (h : isWritable r = true) : isResult r = false := by
  cases r with
  | status | resValue | resTy | resLen | resCount | resPayloadOff | resPayloadLen => cases h
  | _ => rfl

/-- A RW register reads back what was written to it. -/
theorem readReg_writeReg {r : Reg} (h : isWritable r = true) (v : Word) (s : State) : readReg r (writeReg r v s) = v := by
  cases r with
  | status | resValue | resTy | resLen | resCount | resPayloadOff | resPayloadLen => cases h
  | _ => rfl

theorem readReg_assertReset {r : Reg} (h : isWritable r = true) (s : State) : readReg r (assertReset s) = 0 := by
  cases r with
  | status | resValue | resTy | resLen | resCount | resPayloadOff | resPayloadLen => cases h
  | _ => rfl

@[simp] theorem writeReg_params (r : Reg) (v : Word) (s : State) : (writeReg r v s).params = s.params := by
  cases r <;> rfl

/-- Only a CMD write touches STATUS (R24). -/
theorem writeReg_status {r : Reg} (hr : r ≠ .cmd) (v : Word) (s : State) :
    (writeReg r v s).statusCode = s.statusCode ∧ (writeReg r v s).busy = s.busy := by
  cases r with
  | cmd => contradiction
  | _ => exact ⟨rfl, rfl⟩

/-- CODE and BUSY lie in different bits, so composing STATUS is adding them. -/
theorem statusWord_toNat (code : Byte) (busy : Bool) :
    (statusWord code busy).toNat = code.toNat + (if busy then 256 else 0) := by
  have hlt : code.toNat < 2 ^ 8 := code.isLt
  have hmod : code.toNat % 2 ^ 64 = code.toNat := Nat.mod_eq_of_lt (by omega)
  cases busy with
  | false => simpa [statusWord] using hmod
  | true =>
    have hor : 256 + code.toNat = 256 ||| code.toNat := Nat.two_pow_add_eq_or_of_lt hlt 1
    calc (statusWord code true).toNat = code.toNat % 2 ^ 64 ||| 256 := by simp [statusWord]
      _ = code.toNat + 256 := by rw [hmod, Nat.or_comm, ← hor, Nat.add_comm]

/-- The offsets of the read-only registers (R20). -/
theorem exists_readOnly_of_mem {off : Nat} (h : off ∈ [0x008, 0x048, 0x050, 0x058, 0x060, 0x068, 0x070]) :
    ∃ r, isWritable r = false ∧ regOffset r = off := by
  have hmap : off ∈ (allRegs.filter fun r => !isWritable r).map regOffset := h
  obtain ⟨r, hr, rfl⟩ := List.mem_map.1 hmap
  exact ⟨r, by simpa using (List.mem_filter.1 hr).2, rfl⟩

/-- The offsets of the RW registers (R20). -/
theorem exists_writable_of_mem {off : Nat} (h : off ∈ [0x000, 0x010, 0x018, 0x020, 0x028, 0x030, 0x038, 0x040]) :
    ∃ r, isWritable r = true ∧ regOffset r = off := by
  have hmap : off ∈ (allRegs.filter isWritable).map regOffset := h
  obtain ⟨r, hr, rfl⟩ := List.mem_map.1 hmap
  exact ⟨r, (List.mem_filter.1 hr).2, rfl⟩

/-- The result registers, each with its value and its offset (R20, R28). -/
theorem exists_result_of_mem {s : State} {v : Word} {off : Nat}
    (h : (v, off) ∈ [(s.resValue, 0x048), (s.resTy, 0x050), (s.resLen, 0x058), (s.resCount, 0x060),
      (s.resPayloadOff, 0x068), (s.resPayloadLen, 0x070)]) : ∃ r, readReg r s = v ∧ regOffset r = off := by
  have hmap : (v, off) ∈ (allRegs.filter isResult).map fun r => (readReg r s, regOffset r) := h
  obtain ⟨r, -, hr⟩ := List.mem_map.1 hmap
  cases hr
  exact ⟨r, rfl, rfl⟩

/-! ### The access rules -/

/-- The reserved areas from 0x1000 on, at any width whose bytes all lie in one of them (R20; Log 7). -/
theorem locate_reservedArea {p : Params} (hp : p.wf = true) {bytes off : Nat} (hbytes : 1 ≤ bytes)
    (harea : 0x1000 ≤ off ∧ off + bytes ≤ 0x10000 ∨ 0x10000 + p.inMax ≤ off ∧ off + bytes ≤ 0x20000 ∨
      0x20000 + p.outMax ≤ off ∧ off + bytes ≤ 0x30000) : locate p bytes (p.base + off) = .ok .reserved := by
  obtain ⟨-, -, hin, -, hout⟩ := (Params.wf_iff p).1 hp
  exact locate_reserved (by omega) (by omega) (by simp [touches]; omega) (by simp [touches]; omega)

/-- Settles O40, rule by rule. -/
theorem registerAccessRules : Obligations.RegisterAccessRules := by
  intro s
  refine ⟨fun bytes off v hoff hshape => ?_, fun off v hmem => ?_, fun off v h1 h2 h3 => ?_, fun off v hmem => ?_,
    fun v off hmem hb => ?_, fun bytes off v hp hbytes harea => ?_⟩
  · obtain ⟨r, hr⟩ := locate_misshapen s.params hoff hshape
    exact ⟨r, hostAccess_read_refused hr, hostAccess_write_refused v hr⟩
  · obtain ⟨r, hw, rfl⟩ := exists_readOnly_of_mem hmem
    exact hostAccess_writeReg_readOnly s v hw
  · have hl := locate_reservedReg (p := s.params) h1 h2 h3
    exact ⟨hostAccess_write_reserved v hl, hostAccess_read_reserved hl⟩
  · obtain ⟨r, hw, rfl⟩ := exists_writable_of_mem hmem
    have hres := isResult_of_isWritable hw
    refine ⟨fun hb => ⟨writeReg r v s, hostAccess_writeReg v hw hb, ?_⟩, ?_⟩
    · have hread := hostAccess_readReg (s := writeReg r v s) (.inr hres)
      rwa [readReg_writeReg hw, congrArg Params.base (writeReg_params r v s)] at hread
    · have hread := hostAccess_readReg (s := assertReset s) (.inr hres)
      rwa [readReg_assertReset hw, assertReset_params] at hread
  · obtain ⟨r, rfl, rfl⟩ := exists_result_of_mem hmem
    exact hostAccess_readReg (.inl hb)
  · have hl := locate_reservedArea hp hbytes harea
    exact ⟨hostAccess_read_reserved hl, hostAccess_write_reserved v hl⟩

/-- Settles O38: CMD is a RW register, and its write starts a command. -/
theorem cmdWriteStartsACommand : Obligations.CmdWriteStartsACommand :=
  ⟨rfl, fun _ w => ⟨fun hb => hostAccess_writeReg (r := .cmd) w rfl hb,
    fun hb => hostAccess_writeReg_busy (r := .cmd) w rfl hb, hostAccess_readReg (r := .cmd) (.inr rfl)⟩⟩

/-- Settles O41: each of the seven is a RW register. -/
theorem operandWritesStoreTheValue : Obligations.OperandWritesStoreTheValue := fun _ v hb =>
  ⟨hostAccess_writeReg (r := .valueIn) v rfl hb, hostAccess_writeReg (r := .tyIn) v rfl hb,
    hostAccess_writeReg (r := .lenIn) v rfl hb, hostAccess_writeReg (r := .inOff) v rfl hb,
    hostAccess_writeReg (r := .inLen) v rfl hb, hostAccess_writeReg (r := .outOff) v rfl hb,
    hostAccess_writeReg (r := .outCap) v rfl hb⟩

/-! ### STATUS -/

/-- Settles O42: STATUS is no result register, so its read returns the composed word. -/
theorem statusWordFields : Obligations.StatusWordFields := fun s =>
  ⟨statusWord s.statusCode s.busy, hostAccess_readReg (r := .status) (.inr rfl), statusWord_toNat _ _⟩

/-- A completion step that changes CODE or BUSY had a command in flight. -/
theorem exists_pending_of_completionStep {s t : State} (h : completionStep s = .next t)
    (hne : ¬ (t.statusCode = s.statusCode ∧ t.busy = s.busy)) : ∃ w, s.pending = some w := by
  rcases completionStep_next h with ⟨-, rfl⟩ | ⟨w, hw, -⟩
  · exact absurd ⟨rfl, rfl⟩ hne
  · exact ⟨w, hw⟩

/-- A host access that changes CODE or BUSY is a CMD write while BUSY = 0. -/
theorem cmdWrite_of_hostAccess_status {a : Access} {s t : State} (h : hostAccess a s = .next t)
    (hne : ¬ (t.statusCode = s.statusCode ∧ t.busy = s.busy)) :
    ∃ w, a = .write 8 (s.params.base + 0x000) w ∧ s.busy = false ∧ t.pending = some w := by
  rcases hostAccess_next h with ⟨_, _, _, _, -, rfl⟩ | ⟨_, _, v, rfl, rfl | ⟨hb, r, rfl, rfl, -, rfl⟩ |
    ⟨-, _, -, -, -, rfl⟩ | ⟨-, _, -, -, -, rfl⟩⟩
  · exact absurd ⟨rfl, rfl⟩ hne
  · exact absurd ⟨rfl, rfl⟩ hne
  · by_cases hr : r = .cmd
    · subst hr; exact ⟨v, rfl, hb, rfl⟩
    · exact absurd (writeReg_status hr v s) hne
  · exact absurd ⟨rfl, rfl⟩ hne
  · exact absurd ⟨rfl, rfl⟩ hne

/-- Settles O43, by the four kinds of step. -/
theorem onlyCommandsWriteStatus : Obligations.OnlyCommandsWriteStatus := by
  intro s t hstep hne
  rcases step_next hstep with ⟨hag, hc⟩ | ⟨rest, hag, hc⟩ | ⟨a, rest, hag, ha⟩ | ⟨rest, hag, -⟩
  · exact .inr (.inr ⟨.inl hag, exists_pending_of_completionStep hc hne⟩)
  · have hpend := exists_pending_of_completionStep hc hne
    exact .inr (.inr ⟨.inr ⟨rest, hag⟩, hpend⟩)
  · obtain ⟨w, rfl, hb, hpend⟩ := cmdWrite_of_hostAccess_status ha hne
    exact .inl ⟨w, rest, hag, hb, hpend⟩
  · exact .inr (.inl ⟨rest, hag⟩)

/-! ### The buffers -/

theorem exec_keeps_inBuf {i : Instr} {s t : State} (h : exec i s = .next t) : t.inBuf = s.inBuf := by
  have hend := exec_end i s
  rw [h] at hend
  cases hend <;> rfl

/-- Settles O47: a host byte write is one `Memory.write` in its own buffer, and a completion keeps IN. -/
theorem buffersAreDisjoint : Obligations.BuffersAreDisjoint := by
  intro s hp
  refine ⟨fun i b hi hb => ⟨_, hostAccess_writeIn _ hp hi hb, ?_, fun k hk => ?_, rfl⟩,
    fun j b hj hb => ⟨_, hostAccess_writeOut _ hp hj hb, ?_, fun k hk => ?_, rfl⟩, fun i t h => exec_keeps_inBuf h⟩
  · simp
  · simp [hk]
  · simp
  · simp [hk]

/-! ### The step that runs a command, and reset -/

theorem step_of_agenda_nil {s : State} (h : s.agenda = []) : step s = completionStep s := by
  simp only [step, nextEvent, h]

theorem step_of_agenda_completion {s : State} {rest : List Event} (h : s.agenda = .completion :: rest) :
    step s = completionStep { s with agenda := rest } := by
  simp only [step, nextEvent, h, takeEvent]

theorem decode_of_decodeTableWord {nbits w : Nat} {i : Instr} (h : decodeTableWord nbits w = some i) :
    decode (BitVec.ofNat 64 (tableWord nbits w)) = .ok i := by
  unfold decodeTableWord at h
  split at h
  · split at h
    · next hd => rw [hd, Option.some.inj h]
    · cases h
  · cases h

/-- Settles O5: in each of the three ways the step is the completion step, and that runs the decoded command. -/
theorem stepRunsTheDecodedCommand : Obligations.StepRunsTheDecodedCommand := by
  intro s i
  refine ⟨fun w rest hag hp hd => ?_, fun w hag hp hd => ?_, fun nbits w htab => ?_⟩
  · rw [step_of_agenda_completion hag]
    exact completionStep_of_decode hp hd
  · rw [step_of_agenda_nil hag]
    exact completionStep_of_decode hp hd
  · rw [State.withFetchWord, step_of_agenda_completion (deliverCommand_agenda _ s)]
    exact completionStep_of_decode rfl (decode_of_decodeTableWord htab)

/-- Settles O52: both states are written out field by field. -/
theorem resetValues : Obligations.ResetValues := by
  intro s t ht
  simp only [List.mem_cons, List.not_mem_nil, or_false] at ht
  rcases ht with rfl | rfl <;>
    exact ⟨rfl, rfl, rfl, rfl, rfl, rfl, rfl, rfl, rfl, rfl, rfl, ⟨rfl, rfl, rfl, rfl, rfl, rfl⟩, fun _ => rfl, fun _ => rfl⟩

end Sys2Proof.Machine
end

section
/-! PROOFS. The obligations of 20_memory.md: which window a command checks (R54), the bytes it writes to OUT (R56), which accesses
the buffers serve (R53), what an access leaves alone (R58), the order of steps (R61) and the payload view (R66). -/

namespace Sys2Proof.Machine

/-! ### The window a command checks -/

/-- The window command `i` checks is legal: VLEN checks none, the encoders the output window, the decoders the input window
(R54). -/
def State.WindowFor (s : State) : Instr → Prop
  | .vlen => True
  | .venc | .fhenc => s.OutWindow
  | .vdec | .fhdec | .fdec => s.InWindow

/-- WINDOW_ERROR is the only code whose number is 0xF2 (R160). -/
theorem codeByte_ne_windowError {c : Code} (hc : c ≠ .windowError) : codeByte c ≠ 0xF2 := by
  revert hc
  cases c <;> decide

/-- A command that completes with another code than WINDOW_ERROR leaves no 0xF2. -/
theorem ne_windowError_of_next {s t : State} {c : Code} {r : Results} {o : Host.Outcome State Fault Refusal}
    (ho : o = .next (finish c r s)) (hc : c ≠ .windowError) (ht : o = .next t) : t.statusCode ≠ 0xF2 := by
  rw [ho] at ht
  cases ht
  exact codeByte_ne_windowError hc

/-- A command ends with 0xF2 at once if its window is illegal, and with no 0xF2 otherwise. -/
theorem exec_window (i : Instr) (s : State) :
    (¬ s.WindowFor i ∧ exec i s = .next (raise .windowError s)) ∨
    (s.WindowFor i ∧ ∀ t, exec i s = .next t → t.statusCode ≠ 0xF2) := by
  cases i with
  | vlen =>
    rcases execVlen_cases s with ⟨-, h⟩ | ⟨-, h⟩
    all_goals exact .inr ⟨trivial, fun _ => ne_windowError_of_next h (by decide)⟩
  | venc =>
    rcases execVenc_cases s with ⟨hw, h⟩ | ⟨hw, -, h⟩ | ⟨hw, -, -, h⟩ | ⟨hw, -, -, h⟩
    · exact .inl ⟨hw, h⟩
    all_goals exact .inr ⟨hw, fun _ => ne_windowError_of_next h (by decide)⟩
  | vdec =>
    rcases execVdec_cases s with ⟨hw, h⟩ | ⟨hw, -, h⟩ | ⟨hw, _, -, -, h⟩ | ⟨hw, _, _, _, -, -, h⟩
    · exact .inl ⟨hw, h⟩
    · exact .inr ⟨hw, fun _ ht => nomatch h.symm.trans ht⟩
    all_goals exact .inr ⟨hw, fun _ => ne_windowError_of_next h (by decide)⟩
  | fhdec =>
    rcases execFhdec_cases s with ⟨hw, h⟩ | ⟨hw, -, h⟩ | ⟨hw, _, -, -, h⟩ | ⟨hw, _, _, _, -, -, h⟩
    · exact .inl ⟨hw, h⟩
    · exact .inr ⟨hw, fun _ ht => nomatch h.symm.trans ht⟩
    all_goals exact .inr ⟨hw, fun _ => ne_windowError_of_next h (by decide)⟩
  | fhenc =>
    rcases execFhenc_cases s with ⟨hw, h⟩ | ⟨hw, -, h⟩ | ⟨hw, -, -, -, h⟩ | ⟨hw, -, -, -, h⟩
    · exact .inl ⟨hw, h⟩
    all_goals exact .inr ⟨hw, fun _ => ne_windowError_of_next h (by decide)⟩
  | fdec =>
    rcases execFdec_cases s with
      ⟨hw, h⟩ | ⟨hw, -, h⟩ | ⟨hw, _, -, -, h⟩ | ⟨hw, _, _, _, -, -, ⟨-, h⟩ | ⟨-, h⟩⟩
    · exact .inl ⟨hw, h⟩
    · exact .inr ⟨hw, fun _ ht => nomatch h.symm.trans ht⟩
    all_goals exact .inr ⟨hw, fun _ => ne_windowError_of_next h (by decide)⟩

theorem exec_of_not_windowFor {i : Instr} {s : State} (hw : ¬ s.WindowFor i) : exec i s = .next (s.failed 0xF2) := by
  rcases exec_window i s with ⟨-, h⟩ | ⟨hw', -⟩
  · exact h
  · exact absurd hw' hw

theorem ne_windowError_of_windowFor {i : Instr} {s t : State} (hw : s.WindowFor i) (h : exec i s = .next t) :
    t.statusCode ≠ 0xF2 := by
  rcases exec_window i s with ⟨hw', -⟩ | ⟨-, hc⟩
  · exact absurd hw hw'
  · exact hc t h

/-- Settles O29: the three groups of commands are the three cases of `State.WindowFor`. -/
theorem windowErrorExactlyWhenIllegal : Obligations.WindowErrorExactlyWhenIllegal := by
  intro s
  refine ⟨fun i hi => ?_, fun i hi => ?_, fun t => ne_windowError_of_windowFor (i := .vlen) trivial⟩
  · have hwin : s.WindowFor i = s.InWindow := by rcases hi with rfl | rfl | rfl <;> rfl
    rw [← hwin]
    exact ⟨exec_of_not_windowFor, fun _ => ne_windowError_of_windowFor⟩
  · have hwin : s.WindowFor i = s.OutWindow := by rcases hi with rfl | rfl <;> rfl
    rw [← hwin]
    exact ⟨exec_of_not_windowFor, fun _ => ne_windowError_of_windowFor⟩

/-! ### The bytes a command writes -/

/-- The bytes a successful command `i` writes to OUT (R56). -/
def State.encoded (s : State) : Instr → List Byte
  | .venc => varintBytes s.valueIn.toNat
  | .fhenc => varintBytes s.tyIn.toNat ++ varintBytes s.lenIn.toNat
  | .vlen | .vdec | .fhdec | .fdec => []

theorem State.encoded_eq_nil (s : State) {i : Instr} (h1 : i ≠ .venc) (h2 : i ≠ .fhenc) : s.encoded i = [] := by
  cases i with
  | venc | fhenc => contradiction
  | _ => rfl

/-- A command raises an error, completes after storing exactly its encoded bytes at OUT_OFF, or faults. -/
theorem exec_stores (i : Instr) (s : State) :
    (∃ c, c ≠ .ok ∧ exec i s = .next (raise c s)) ∨
    (∃ r, exec i s = .next (complete r (storeOut s.outOff.toNat (s.encoded i) s))) ∨
    exec i s = .fault .readUnwrittenInput := by
  by_cases h1 : i = .venc
  · subst h1
    rcases execVenc_cases s with ⟨-, h⟩ | ⟨-, -, h⟩ | ⟨-, -, -, h⟩ | ⟨-, -, -, h⟩
    · exact .inl ⟨_, by decide, h⟩
    · exact .inl ⟨_, by decide, h⟩
    · exact .inl ⟨_, by decide, h⟩
    · exact .inr (.inl ⟨_, h⟩)
  by_cases h2 : i = .fhenc
  · subst h2
    rcases execFhenc_cases s with ⟨-, h⟩ | ⟨-, -, h⟩ | ⟨-, -, -, -, h⟩ | ⟨-, -, -, -, h⟩
    · exact .inl ⟨_, by decide, h⟩
    · exact .inl ⟨_, by decide, h⟩
    · exact .inl ⟨_, by decide, h⟩
    · exact .inr (.inl ⟨_, h⟩)
  rw [State.encoded_eq_nil s h1 h2]
  rcases exec_cases i s with h | ⟨r, bs, rfl | ⟨hi, -⟩, h⟩ | h
  · exact .inl h
  · exact .inr (.inl ⟨r, h⟩)
  · rcases hi with hi | hi <;> contradiction
  · exact .inr (.inr h)

/-- OUT after a command: as before on an error, and with the encoded bytes at OUT_OFF on success. -/
theorem exec_outBuf {i : Instr} {s t : State} (h : exec i s = .next t) :
    (t.statusCode ≠ 0x00 ∧ t.outBuf = s.outBuf) ∨
    (t.statusCode = 0x00 ∧ t.outBuf = memWrite s.outBuf s.outOff.toNat (s.encoded i)) := by
  rcases exec_stores i s with ⟨c, hc, he⟩ | ⟨r, he⟩ | he <;> rw [he] at h <;> cases h
  · exact .inl ⟨mt codeByte_eq_zero_iff.1 hc, rfl⟩
  · exact .inr ⟨rfl, rfl⟩

theorem exec_outBuf_of_error {i : Instr} {s t : State} (h : exec i s = .next t) (hc : t.statusCode ≠ 0x00) :
    t.outBuf = s.outBuf := by
  rcases exec_outBuf h with ⟨-, ho⟩ | ⟨h0, -⟩
  · exact ho
  · exact absurd h0 hc

/-- A byte of OUT outside the encoded bytes' place is as before, whether the command succeeds or not. -/
theorem exec_outBuf_outside {i : Instr} {s t : State} {j : Nat} (h : exec i s = .next t)
    (hj : j < s.outOff.toNat ∨ s.outOff.toNat + (s.encoded i).length ≤ j) : t.outBuf.read j = s.outBuf.read j := by
  rcases exec_outBuf h with ⟨-, ho⟩ | ⟨-, ho⟩
  · rw [ho]
  · rw [ho, read_memWrite, if_neg (by omega)]

theorem exec_outBuf_inside {i : Instr} {s t : State} {j : Nat} (h : exec i s = .next t) (hc : t.statusCode = 0x00)
    (h1 : s.outOff.toNat ≤ j) (h2 : j < s.outOff.toNat + (s.encoded i).length) :
    t.outBuf.read j = (s.encoded i)[j - s.outOff.toNat]? := by
  rcases exec_outBuf h with ⟨hne, -⟩ | ⟨-, ho⟩
  · exact absurd hc hne
  · rw [ho, read_memWrite, if_pos ⟨h1, h2⟩]

theorem State.encoded_venc_length (s : State) : (s.encoded .venc).length = tier s.valueIn.toNat :=
  varintBytes_length _

theorem State.encoded_fhenc_length (s : State) :
    (s.encoded .fhenc).length = tier s.tyIn.toNat + tier s.lenIn.toNat := by
  simp [State.encoded]

/-- Settles O24: OUT inside and outside the encoded bytes' place, for each of the two encoders, after an error, and for the
commands that encode nothing. -/
theorem encodersWriteExactlyTheirBytes : Obligations.EncodersWriteExactlyTheirBytes := by
  intro i s t j h
  refine ⟨?_, ?_, ?_, ?_, fun hc => by rw [exec_outBuf_of_error h hc], fun h1 h2 => ?_⟩
  · rintro rfl hc h1 h2
    exact exec_outBuf_inside h hc h1 (by rwa [State.encoded_venc_length])
  · rintro rfl hj
    exact exec_outBuf_outside h (by rwa [State.encoded_venc_length])
  · rintro rfl hc h1 h2
    exact exec_outBuf_inside h hc h1 (by rwa [State.encoded_fhenc_length])
  · rintro rfl hj
    exact exec_outBuf_outside h (by rwa [State.encoded_fhenc_length])
  · have hlen : (s.encoded i).length = 0 := by rw [State.encoded_eq_nil s h1 h2]; rfl
    exact exec_outBuf_outside h (by omega)

/-! ### Which accesses the buffers serve -/

/-- An access from 0x1000 on that is not byte-wide and covers a buffer byte is no access the block serves (R53; Log 7). -/
theorem locateOffset_wide {p : Params} {bytes off k : Nat} (hbytes : bytes ≠ 1) (hoff : ¬ off < 0x1000) (h1 : off ≤ k)
    (h2 : k ≤ off + (bytes - 1))
    (hk : 0x10000 ≤ k ∧ k < 0x10000 + p.inMax ∨ 0x20000 ≤ k ∧ k < 0x20000 + p.outMax) :
    locateOffset p bytes off = .error .bufferAccessWidth := by
  rw [locateOffset, if_neg hoff]
  by_cases hin : touches off (off + (bytes - 1)) 0x10000 p.inMax = true
  · rw [if_pos hin, if_neg hbytes]
  · have hout : touches off (off + (bytes - 1)) 0x20000 p.outMax = true := by simp [touches] at hin ⊢; omega
    rw [if_neg hin, if_pos hout, if_neg hbytes]

/-- An access that is not byte-wide and covers a buffer byte is refused, wherever it begins. -/
theorem locate_wide {p : Params} {bytes off k : Nat} (hbytes : bytes ≠ 1) (h1 : off ≤ k) (h2 : k ≤ off + (bytes - 1))
    (hk : 0x10000 ≤ k ∧ k < 0x10000 + p.inMax ∨ 0x20000 ≤ k ∧ k < 0x20000 + p.outMax) :
    ∃ r, locate p bytes (p.base + off) = .error r := by
  by_cases hoff : off < 0x1000
  · exact locate_misshapen p hoff (by omega)
  · unfold locate
    split
    · exact ⟨.bufferAccessWidth, by rw [Nat.add_sub_cancel_left, locateOffset_wide hbytes hoff h1 h2 hk]⟩
    · exact ⟨_, rfl⟩

/-- Settles O48, by where each access lands. -/
theorem wideBufferAccessRefused : Obligations.WideBufferAccessRefused := by
  intro s hp
  refine ⟨fun bytes off k v hbytes h1 h2 hk => ?_, fun i v hi => ?_, fun j v hj => ?_⟩
  · obtain ⟨r, hr⟩ := locate_wide hbytes h1 h2 hk
    exact ⟨r, hostAccess_read_refused hr, hostAccess_write_refused v hr⟩
  · exact ⟨⟨_, hostAccess_read_of_locate (locate_inByte hp hi)⟩, fun hb => ⟨_, hostAccess_writeIn v hp hi hb⟩⟩
  · exact ⟨⟨_, hostAccess_read_of_locate (locate_outByte hp hj)⟩, fun hb => ⟨_, hostAccess_writeOut v hp hj hb⟩⟩

/-! ### What an access leaves alone -/

/-- `s` with the operand registers, the window registers and the buffers of `t`: all that a host write other than to CMD may
change (R58). -/
def State.withStored (s t : State) : State :=
  { s with
    valueIn := t.valueIn, tyIn := t.tyIn, lenIn := t.lenIn, inOff := t.inOff, inLen := t.inLen
    outOff := t.outOff, outCap := t.outCap, inBuf := t.inBuf, outBuf := t.outBuf }

theorem writeReg_eq_withStored {r : Reg} (hr : r ≠ .cmd) (v : Word) (s : State) :
    writeReg r v s = s.withStored (writeReg r v s) := by
  cases r with
  | cmd => contradiction
  | _ => rfl

theorem hostAccess_read_keeps {s t : State} {bytes addr : Nat} (h : hostAccess (.read bytes addr) s = .next t) :
    t = { s with readData := t.readData, draws := t.draws } := by
  rcases hostAccess_next h with ⟨_, _, d, k, -, rfl⟩ | ⟨_, _, _, hw, -⟩
  · rfl
  · cases hw

/-- A host write other than to CMD only stores. -/
theorem hostAccess_write_eq_withStored {s t : State} {bytes addr : Nat} {v : Word}
    (h : hostAccess (.write bytes addr v) s = .next t) (haddr : addr ≠ s.params.base + regOffset .cmd) :
    t = s.withStored t := by
  rcases hostAccess_next h with ⟨_, _, _, _, hr, -⟩ | ⟨_, _, _, hw, hcases⟩
  · cases hr
  · cases hw
    rcases hcases with rfl | ⟨-, r, -, rfl, -, rfl⟩ | ⟨-, i, -, -, -, rfl⟩ | ⟨-, j, -, -, -, rfl⟩
    · rfl
    · have hr : r ≠ .cmd := by rintro rfl; exact haddr rfl
      exact writeReg_eq_withStored hr v s
    · rfl
    · rfl

/-- Settles O49: a write that only stores keeps every field `State.withStored` takes from the state before. -/
theorem onlyCmdWritesHaveSideEffects : Obligations.OnlyCmdWritesHaveSideEffects := by
  refine ⟨fun s t bytes addr h => hostAccess_read_keeps h, fun s t bytes addr v h haddr => ?_⟩
  rw [hostAccess_write_eq_withStored h haddr]
  exact ⟨rfl, rfl, rfl, rfl, rfl, rfl, rfl, rfl, rfl, rfl, rfl, rfl, rfl, rfl⟩

/-! ### The payload view -/

/-- A byte write outside a range leaves what the range reads. -/
theorem memRead_write_outside {m : Memory} {a n i : Nat} (b : Byte) (hi : i < a ∨ a + n ≤ i) :
    memRead (m.write i b) a n = memRead m a n :=
  memRead_congr fun k hk => by rw [Memory.read_write, if_neg (by omega)]

/-- A byte write at the k-th byte of a range changes what the range reads at `k` and nowhere else. -/
theorem memRead_write_inside (m : Memory) {a n k : Nat} (b : Byte) (hk : k < n) :
    memRead (m.write (a + k) b) a n = (memRead m a n).set k (some b) := by
  apply List.ext_getElem?
  intro j
  rw [List.getElem?_set, memRead_length, memRead_getElem?, memRead_getElem?, Memory.read_write]
  by_cases hj : k = j
  · subst hj
    simp [hk]
  · rw [if_neg hj, if_neg (show a + j ≠ a + k by omega)]

/-- Settles O51: the write is one `Memory.write` in IN, outside the view or at its k-th byte. -/
theorem payloadViewFollowsTheBuffer : Obligations.PayloadViewFollowsTheBuffer := by
  intro s t i b hp hi hb h
  rw [hostAccess_writeIn _ hp hi hb, BitVec.setWidth_setWidth_of_le _ (by decide), BitVec.setWidth_eq] at h
  cases h
  refine ⟨rfl, rfl, fun hout => memRead_write_outside b hout, fun k hk hik => ?_⟩
  subst hik
  exact memRead_write_inside s.inBuf b hk

/-! ### The order of steps -/

theorem step_of_agenda_cons {s : State} {e : Event} {rest : List Event} (h : s.agenda = e :: rest) :
    step s = takeEvent e { s with agenda := rest } := by
  simp only [step, nextEvent, h]

theorem completionStep_of_idle {s : State} (h : s.pending = none) : completionStep s = .next s := by
  simp only [completionStep, h]

/-- Settles O6: the entry at the head of the agenda is taken, and with no entry left or a completion entry it is the completion
step, which does nothing with nothing in flight. -/
theorem stepTakesTheNextEvent : Obligations.StepTakesTheNextEvent := by
  intro s
  refine ⟨fun _ _ hag => step_of_agenda_cons hag, fun _ hag => step_of_agenda_cons hag,
    fun _ _ hag => step_of_agenda_cons hag, fun rest hag hp => ?_, fun hag hp => ?_⟩
  · rw [step_of_agenda_completion hag]
    exact completionStep_of_idle hp
  · rw [step_of_agenda_nil hag, completionStep_of_idle hp]

end Sys2Proof.Machine
end

section
/-! PROOFS. The obligations of 30_encoding.md: the command word (R70, R71), the varint's bytes (R73 to R78) and the lines of a
host program (R85, R86). -/

namespace Sys2Proof.Machine

/-! ### Command words -/

theorem opField_toNat (w : Word) : (opField w).toNat = w.toNat % 16 := by
  simp [opField]

theorem rsvdField_toNat (w : Word) : (rsvdField w).toNat = w.toNat / 16 := by
  have hlt := w.isLt
  simp [rsvdField, Nat.shiftRight_eq_div_pow]
  omega

theorem rsvdField_eq_zero_iff (w : Word) : rsvdField w = 0 ↔ w.toNat / 16 = 0 := by
  rw [← BitVec.toNat_inj, rsvdField_toNat]
  rfl

theorem encode_toNat_bounds (i : Instr) : 1 ≤ (encode i).toNat ∧ (encode i).toNat ≤ 6 := by
  cases i <;> decide

/-- The operation number of a command is its command word, which has RSVD zero (R70). -/
theorem commandOfOp_eq_some_iff {op : BitVec 4} {i : Instr} : commandOfOp op = some i ↔ op.toNat = (encode i).toNat := by
  cases i <;> revert op <;> decide

/-- The decoder is the inverse of the encoder: a word is a command's only if all its 64 bits are those of the command's word. -/
theorem decode_eq_ok_iff {w : Word} {i : Instr} : decode w = .ok i ↔ w = encode i := by
  have hfields : decode w = .ok i ↔ rsvdField w = 0 ∧ commandOfOp (opField w) = some i := by
    unfold decode
    split
    · next hr => cases commandOfOp (opField w) <;> simp [hr]
    · next hr => exact ⟨nofun, fun h => absurd h.1 hr⟩
  obtain ⟨-, hle⟩ := encode_toNat_bounds i
  rw [hfields, rsvdField_eq_zero_iff, commandOfOp_eq_some_iff, opField_toNat, ← BitVec.toNat_inj]
  omega

theorem decode_of_rsvd {w : Word} (h : w.toNat / 16 ≠ 0) : decode w = .error .reservedBits := by
  rw [decode, if_neg (mt (rsvdField_eq_zero_iff w).1 h)]

/-- A word outside 1 to 6 is refused (R71). -/
theorem exists_decode_error {w : Word} (h : ¬ (1 ≤ w.toNat ∧ w.toNat ≤ 6)) : ∃ e, decode w = .error e := by
  cases hd : decode w with
  | error e => exact ⟨e, rfl⟩
  | ok i => exact absurd (decode_eq_ok_iff.1 hd ▸ encode_toNat_bounds i) h

theorem legalCommandWord_iff (w : Word) : legalCommandWord w = true ↔ 1 ≤ w.toNat ∧ w.toNat ≤ 6 := by
  simp only [legalCommandWord, Bool.and_eq_true, beq_iff_eq, decide_eq_true_eq, rsvdField_eq_zero_iff, opField_toNat]
  omega

/-- At 64 bits the table word of a command word is the word itself. -/
theorem decodeTableWord_of_decode {w : Word} {i : Instr} (h : decode w = .ok i) : decodeTableWord 64 w.toNat = some i := by
  have hword : tableWord 64 w.toNat = w.toNat := Nat.mod_eq_of_lt w.isLt
  simp [decodeTableWord, hword, w.isLt, h]

/-- Every row of the command map compares the whole word with the row's command word (R70). -/
theorem opTable_row : ∀ row ∈ opTable, row.mask = BitVec.allOnes 64 ∧ row.pattern = encode row.command := by
  decide

/-- Settles O2: each clause but the last is `decode_eq_ok_iff` at one command. -/
theorem decodeAcceptsExactlyTheMap : Obligations.DecodeAcceptsExactlyTheMap := by
  intro w
  refine ⟨decode_eq_ok_iff, decode_eq_ok_iff, decode_eq_ok_iff, decode_eq_ok_iff, decode_eq_ok_iff, decode_eq_ok_iff,
    fun row hrow => ?_, decode_of_rsvd⟩
  obtain ⟨hmask, hpattern⟩ := opTable_row row hrow
  rw [hmask, hpattern, BitVec.and_allOnes]
  exact decode_eq_ok_iff

/-- Settles O1: a command's word is one of 1 to 6, and the decoder reads it back at 64 bits. -/
theorem encodeThenDecodeIsIdentity : Obligations.EncodeThenDecodeIsIdentity := fun i =>
  have hd : decode (encode i) = .ok i := decode_eq_ok_iff.2 rfl
  ⟨hd, decodeTableWord_of_decode hd, (legalCommandWord_iff _).2 (encode_toNat_bounds i)⟩

/-- Settles O3, by evaluating the decoder on each word. -/
theorem sampleWordsDecode : Obligations.SampleWordsDecode :=
  ⟨rfl, rfl, rfl, rfl, rfl, rfl, rfl, rfl, rfl, rfl, rfl⟩

/-- Settles O4: the CMD write does not look at the word, and the completion step finds that it decodes to no command. -/
theorem illegalWordCompletesWithF1 : Obligations.IllegalWordCompletesWithF1 := by
  intro s w hb hillegal
  obtain ⟨e, he⟩ := exists_decode_error (w := w) (by omega)
  exact ⟨hostAccess_writeReg (r := .cmd) w rfl hb, completionStep_of_illegal rfl he⟩

/-! ### The bytes of a varint -/

/-- The value bits of a varint of `M + 1` bytes: six of the first byte, and all bits of the `M` others (R73). -/
theorem two_pow_valueBits (M : Nat) : 2 ^ (8 * (M + 1) - 2) = 64 * 256 ^ M := by
  rw [show 8 * (M + 1) - 2 = 6 + 8 * M by omega, pow_add, pow_mul]
  norm_num

theorem topBits_lt {M v : Nat} (hv : v < 2 ^ (8 * (M + 1) - 2)) : v / 256 ^ M < 64 :=
  Nat.div_lt_of_lt_mul (by rwa [two_pow_valueBits, Nat.mul_comm] at hv)

/-- Byte `k` of the big-endian sequence (R6). -/
theorem bytesOf_getElem? {L k : Nat} (w : Nat) (h : k < L) :
    (bytesOf w L)[k]? = some (BitVec.ofNat 8 (w / 256 ^ (L - 1 - k))) := by
  induction L generalizing k with
  | zero => omega
  | succ L ih =>
    cases k with
    | zero => simp [bytesOf]
    | succ k =>
      rw [bytesOf, List.getElem?_cons_succ, ih (by omega), show L + 1 - 1 - (k + 1) = L - 1 - k by omega]

/-- Dropping the low `j` bytes of a tagged value drops them from the value: the tag lies above all of its bits. -/
theorem tagged_div {M j : Nat} (t v : Nat) (hj : j ≤ M) :
    (t * 2 ^ (8 * (M + 1) - 2) + v) / 256 ^ j = t * 64 * 256 ^ (M - j) + v / 256 ^ j := by
  have hsplit : t * 2 ^ (8 * (M + 1) - 2) + v = v + 256 ^ j * (t * 64 * 256 ^ (M - j)) := by
    rw [two_pow_valueBits, ← Nat.add_sub_of_le hj, pow_add, Nat.add_sub_cancel_left]
    ring
  rw [hsplit, Nat.add_mul_div_left _ _ (Nat.pow_pos (by decide)), Nat.add_comm]

/-- The first byte of a varint: the tag in bits 7:6, the top of the value in bits 5:0 (R73). -/
theorem tagged_firstByte {M t v : Nat} (ht : t < 4) (hv : v < 2 ^ (8 * (M + 1) - 2)) :
    (BitVec.ofNat 8 ((t * 2 ^ (8 * (M + 1) - 2) + v) / 256 ^ M)).toNat = t * 64 + v / 256 ^ M := by
  have htop := topBits_lt hv
  rw [tagged_div t v (Nat.le_refl M), Nat.sub_self, pow_zero, Nat.mul_one, BitVec.toNat_ofNat]
  exact Nat.mod_eq_of_lt (by omega)

/-- A later byte of a varint holds none of the tag (R73). -/
theorem tagged_laterByte {M k : Nat} (t v : Nat) (hk : 1 ≤ k) (hkM : k ≤ M) :
    BitVec.ofNat 8 ((t * 2 ^ (8 * (M + 1) - 2) + v) / 256 ^ (M - k)) = BitVec.ofNat 8 (v / 256 ^ (M - k)) := by
  obtain ⟨n, rfl⟩ : ∃ n, k = n + 1 := ⟨k - 1, by omega⟩
  have hexp : M - (M - (n + 1)) = n + 1 := by omega
  apply BitVec.eq_of_toNat_eq
  rw [tagged_div t v (Nat.sub_le M _), hexp, BitVec.toNat_ofNat, BitVec.toNat_ofNat, pow_succ, ← Nat.mul_assoc]
  omega

/-- R74's table of lengths and tags. -/
theorem tagOfLen_of_mem : ∀ q ∈ [((1 : Nat), (0 : Nat)), (2, 1), (4, 2), (8, 3)],
    1 ≤ q.1 ∧ q.2 < 4 ∧ tagOfLen q.1 = q.2 := by
  decide

/-- Settles O13: the first byte carries the tag and the top of the value, every later byte its own eight bits of the value. -/
theorem varintByteLayout : Obligations.VarintByteLayout := by
  intro L tag v hmem hv
  obtain ⟨hL, htag, htagOf⟩ : 1 ≤ L ∧ tag < 4 ∧ tagOfLen L = tag := tagOfLen_of_mem (L, tag) hmem
  obtain ⟨M, rfl⟩ : ∃ M, L = M + 1 := ⟨L - 1, by omega⟩
  have hfirst := tagged_firstByte htag hv
  have htop := topBits_lt hv
  have hbytes : varintBytesAt v (M + 1) = bytesOf (tag * 2 ^ (8 * (M + 1) - 2) + v) (M + 1) := by
    rw [varintBytesAt, htagOf]
  refine ⟨_, _, hbytes, bytesOf_length (tag * 2 ^ (8 * (M + 1) - 2) + v) (M + 1), ?_, ?_, fun k hk hkL => ?_⟩
  · rw [tagField_toNat, hfirst, Nat.mul_comm tag, Nat.mul_add_div (by decide), Nat.div_eq_of_lt htop, Nat.add_zero]
  · rw [topValueField_toNat, hfirst, Nat.add_sub_cancel, Nat.mul_add_mod_self_right, Nat.mod_eq_of_lt htop]
  · exact (bytesOf_getElem? _ hkL).trans (congrArg some (tagged_laterByte tag v hk (by omega)))

/-- Settles O14: reducing modulo 64 * 256^n keeps the low `n` bytes and the low six bits of the byte above them. -/
theorem valueAssemblyIsBigEndian : Obligations.ValueAssemblyIsBigEndian := by
  intro b rest
  have hassembled : assembleValue (topValueField b).toNat rest = b.toNat % 64 * 256 ^ rest.length + valueOf rest := by
    rw [assembleValue_eq, topValueField_toNat]
  refine ⟨?_, hassembled⟩
  have hlow : valueOf (b :: rest) % 256 ^ rest.length = valueOf rest := by
    rw [valueOf_cons, Nat.mul_add_mod_self_right, Nat.mod_eq_of_lt (valueOf_lt rest)]
  have hhigh : valueOf (b :: rest) / 256 ^ rest.length = b.toNat := by
    rw [valueOf_cons, Nat.add_comm, Nat.add_mul_div_right _ _ (Nat.pow_pos (by decide)),
      Nat.div_eq_of_lt (valueOf_lt rest), Nat.zero_add]
  rw [hassembled, two_pow_valueBits, Nat.mul_comm 64, Nat.mod_mul, hlow, hhigh]
  ring

/-- Settles O15, by the decoder's two cases on a nonempty input. -/
theorem decodeFailsOnlyOnShortInput : Obligations.DecodeFailsOnlyOnShortInput := by
  have hshort : ∀ (b : Byte) (rest : List Byte), (b :: rest).length < 2 ^ (tagField b).toNat →
      varintDecode (b :: rest) = .error .bufferTooSmall := fun b rest h =>
    (varintDecode_cons b rest).trans (if_pos h)
  have hlong : ∀ (b : Byte) (rest : List Byte), 2 ^ (tagField b).toNat ≤ (b :: rest).length →
      ∃ v, varintDecode (b :: rest) = .ok (v, 2 ^ (tagField b).toNat) ∧ v ≤ max62 := fun b rest h => by
    have hok := (varintDecode_cons b rest).trans (if_neg (Nat.not_lt.2 h))
    exact ⟨_, hok, varintDecode_value_le hok⟩
  refine ⟨varintDecode_nil, hshort, hlong, fun s e h => ⟨varintDecode_error h, ?_⟩⟩
  cases s with
  | nil => exact .inl rfl
  | cons b rest =>
    refine .inr ⟨b, rest, rfl, Nat.lt_of_not_le fun hle => ?_⟩
    obtain ⟨v, hok, -⟩ := hlong b rest hle
    rw [hok] at h
    cases h

/-! ### The lines of a host program -/

/-- `W REG, v` (R85). -/
theorem lineAccess_write {p : Params} {vars : HostVars} {r : Reg} {e : HostExpr} {n : Nat} (he : evalHost vars e = some n)
    (hn : n < 2 ^ 64) : lineAccess p vars (.write r e) = some (.write 8 (p.base + regOffset r) (BitVec.ofNat 64 n)) := by
  simp only [lineAccess, he, Option.bind_some, if_pos hn]

/-- `WB IN[i], b` (R85). -/
theorem lineAccess_writeIn {p : Params} {vars : HostVars} {ei eb : HostExpr} {i b : Nat} (hi : evalHost vars ei = some i)
    (hb : evalHost vars eb = some b) (hlt : b < 256) :
    lineAccess p vars (.writeIn ei eb) = some (.write 1 (p.base + 0x10000 + i) (BitVec.ofNat 64 b)) := by
  simp [lineAccess, bufferAccess, hi, hb, hlt]

/-- `WB OUT[j], b` (R85). -/
theorem lineAccess_writeOut {p : Params} {vars : HostVars} {ej eb : HostExpr} {j b : Nat} (hj : evalHost vars ej = some j)
    (hb : evalHost vars eb = some b) (hlt : b < 256) :
    lineAccess p vars (.writeOut ej eb) = some (.write 1 (p.base + 0x20000 + j) (BitVec.ofNat 64 b)) := by
  simp [lineAccess, bufferAccess, hj, hb, hlt]

/-- `RB h, IN[i]` (R85). -/
theorem lineAccess_readIn {p : Params} {vars : HostVars} {h : String} {ei : HostExpr} {i : Nat}
    (hi : evalHost vars ei = some i) : lineAccess p vars (.readIn h ei) = some (.read 1 (p.base + 0x10000 + i)) := by
  simp [lineAccess, bufferAccess, hi]

/-- `RB h, OUT[j]` (R85). -/
theorem lineAccess_readOut {p : Params} {vars : HostVars} {h : String} {ej : HostExpr} {j : Nat}
    (hj : evalHost vars ej = some j) : lineAccess p vars (.readOut h ej) = some (.read 1 (p.base + 0x20000 + j)) := by
  simp [lineAccess, bufferAccess, hj]

/-- The lines of a `WBS` are the byte writes of its bytes at consecutive indices of the buffer at `start`, if each line is the
byte write of its byte at its index (R86). -/
theorem wbsLines_access {p : Params} {vars : HostVars} {line : HostExpr → HostExpr → HostLine} {start : Nat}
    (hline : ∀ (j k : Nat) (x : Byte), lineAccess p vars (line (.add (.lit j) (.lit k)) (.lit x.toNat)) =
      some (.write 1 (p.base + start + (j + k)) (BitVec.ofNat 64 x.toNat))) (i : Nat) (bs : List Byte) :
    ((bs.map fun x => HostExpr.lit x.toNat).mapIdx fun k b => line (.add (.lit i) (.lit k)) b).map (lineAccess p vars) =
      bs.mapIdx fun k x => some (.write 1 (p.base + start + (i + k)) (x.setWidth 64)) := by
  apply List.ext_getElem?
  intro k
  simp only [List.getElem?_map, List.getElem?_mapIdx, Option.map_map]
  congr 1
  funext x
  rw [← BitVec.ofNat_toNat]
  exact hline i k x

/-- The lines of `RBS` are byte reads of OUT at consecutive indices, and then the host's own work (R86). -/
theorem rbsOutLines_access (p : Params) (vars : HostVars) (h : String) (j n : Nat) :
    (rbsOutLines h (.lit j) n).map (lineAccess p vars) =
      (List.range n).map (fun k => some (.read 1 (p.base + 0x20000 + (j + k)))) ++ [none] := by
  rw [rbsOutLines, List.map_append, List.map_map]
  exact congrArg (· ++ [none]) (List.map_congr_left fun k _ => lineAccess_readOut rfl)

/-- Settles O59, line by line. -/
theorem hostLinesAreBusAccesses : Obligations.HostLinesAreBusAccesses := fun p vars _ h i n _ hn hb =>
  ⟨lineAccess_write rfl hn, rfl, lineAccess_writeIn rfl rfl hb, lineAccess_writeOut rfl rfl hb, lineAccess_readIn rfl,
    lineAccess_readOut rfl, fun _ _ _ => ⟨rfl, rfl, rfl⟩,
    wbsLines_access (fun _ _ x => lineAccess_writeIn rfl rfl x.isLt) i,
    wbsLines_access (fun _ _ x => lineAccess_writeOut rfl rfl x.isLt) i, rbsOutLines_access p vars h i n⟩

/-! ### WAIT -/

/-- `R h, REG` for a register whose read is no free draw: the host variable takes the register's value (R85). -/
theorem runHostLine_read {h : HostState} {s : State} {x : String} {r : Reg} (hcur : h.current = some (.read x r))
    (hr : isResult r = false) :
    runHostLine h s = .next ((h.set x (.num (readReg r s).toNat)).advance, { s with readData := some (readReg r s) }) := by
  simp [runHostLine, hcur, runAccessLine, lineAccess, hostAccess_readReg (.inr hr), afterAccess, readTarget]

/-- `WAIT`'s condition on a variable that holds STATUS is BUSY, bit 8 (R24, R86). -/
theorem condHost_busy {vars : HostVars} {t : String} {code : Byte} {busy : Bool}
    (ht : hostNum vars t = some (code.toNat + if busy then 256 else 0)) :
    condHost vars (.eq (.slice (.var t) 8 8) (.lit 1)) = some busy := by
  have hcode := code.isLt
  simp only [condHost, evalHost, ht, Option.map_some, Option.bind_some, Option.some.injEq]
  cases busy with
  | false => rw [if_neg (by decide), beq_eq_false_iff_ne]; omega
  | true => rw [if_pos rfl, beq_iff_eq]; omega

/-- The last line of `WAIT`: back to the label, its first line, while BUSY = 1, and past the lines with BUSY = 0 (R86). -/
theorem runHostLine_waitJump {l t : String} {vars : HostVars} {busy : Bool} (s : State)
    (hcond : condHost vars (.eq (.slice (.var t) 8 8) (.lit 1)) = some busy) :
    runHostLine ⟨waitLines l t, 2, vars, []⟩ s = .next (⟨waitLines l t, if busy then 0 else 3, vars, []⟩, s) := by
  cases busy <;> simp [runHostLine, waitLines, hcond, List.findIdx?_cons]

/-- Settles O60: the label only advances, the read takes STATUS, and the jump goes by its bit 8. -/
theorem waitLoopsWhileBusy : Obligations.WaitLoopsWhileBusy := by
  intro s l t vars
  have hcond : condHost (setHostVar vars t (.num (statusWord s.statusCode s.busy).toNat))
      (.eq (.slice (.var t) 8 8) (.lit 1)) = some s.busy :=
    condHost_busy (code := s.statusCode) (by rw [hostNum_setHostVar, statusWord_toNat])
  refine ⟨_, _, _, _, rfl, runHostLine_read (x := t) (r := .status) rfl rfl, runHostLine_waitJump _ hcond, rfl, ?_, rfl⟩
  exact (hostVar_setHostVar vars t _).trans (by rw [readReg, statusWord_toNat])

end Sys2Proof.Machine
end

section
/-! PROOFS. The obligations of 40_varint.md: the round trip (R110), the tier (R111, R113), what VLEN, VENC and VDEC end with
(R103 to R109, R114), and that a command is a function of its inputs (R115). -/

namespace Sys2Proof.Machine

/-! ### The decoder on encoded bytes -/

/-- The tag of each length, and the length the tag stands for (R74). -/
theorem tagOfLen_spec : ∀ L ∈ varintLengths,
    (L, tagOfLen L) ∈ [((1 : Nat), (0 : Nat)), (2, 1), (4, 2), (8, 3)] ∧ 2 ^ tagOfLen L = L := by
  decide

/-- The varint of any length that holds the value decodes to it: the first byte's low six bits are the top of the value, and
the bytes after it are the rest (R108, R110). -/
theorem varintDecode_varintBytesAt {v L : Nat} (hL : L ∈ varintLengths) (hv : v < 2 ^ (8 * L - 2)) :
    varintDecode (varintBytesAt v L) = .ok (v, L) := by
  obtain ⟨hmem, hpow⟩ := tagOfLen_spec L hL
  obtain ⟨b, rest, hbytes, hlen, htag, htop, -⟩ := varintByteLayout L (tagOfLen L) v hmem hv
  obtain ⟨M, rfl⟩ : ∃ M, L = M + 1 := ⟨rest.length, hlen.symm⟩
  have hM : rest.length = M := Nat.succ.inj hlen
  have hrest : rest = bytesOf (tagOfLen (M + 1) * 2 ^ (8 * (M + 1) - 2) + v) M := (List.cons.inj hbytes).2.symm
  have hlow : valueOf rest = v % 256 ^ M := by
    rw [hrest, valueOf_bytesOf, two_pow_valueBits, ← Nat.mul_assoc, Nat.mul_add_mod_self_right]
  have hvalue : assembleValue (topValueField b).toNat rest = v := by
    rw [assembleValue_eq, htop, hlow, hM, Nat.add_sub_cancel, Nat.div_add_mod']
  rw [hbytes, varintDecode_cons, htag, hpow, if_neg (by omega), List.take_of_length_le (by omega), hvalue]

/-- What follows a varint does not matter (R102). -/
theorem varintDecode_varintBytesAt_append {v L : Nat} (hL : L ∈ varintLengths) (hv : v < 2 ^ (8 * L - 2))
    (trail : List Byte) : varintDecode (varintBytesAt v L ++ trail) = .ok (v, L) :=
  varintDecode_of_prefix (varintDecode_varintBytesAt hL hv) ((List.take_prefix _ _).trans (List.prefix_append _ _))

/-- The canonical bytes of a value of the domain decode to it and its tier (R110). -/
theorem varintDecode_varintBytes {v : Nat} (hv : v ≤ max62) : varintDecode (varintBytes v) = .ok (v, tier v) :=
  varintDecode_varintBytesAt (tier_mem_varintLengths v) (lt_of_tier hv)

theorem varintEncode_of_fits {v cap : Nat} (hv : v ≤ max62) (hcap : tier v ≤ cap) :
    varintEncode v cap = .ok (varintBytes v) := by
  simp only [varintEncode, varintLen_of_le hv, if_neg (Nat.not_lt.2 hcap), varintBytes]

/-- Settles O16: `varint_encode` gives the canonical bytes, and these decode to the value. -/
theorem varintRoundTrip : Obligations.VarintRoundTrip := fun v _ hv hcap =>
  ⟨varintBytes v, varintEncode_of_fits hv hcap, varintDecode_varintBytes hv, varintBytes_length v⟩

/-! ### The tier -/

theorem tier_eq_one {v : Nat} (h : v ≤ 63) : tier v = 1 := if_pos h

theorem tier_eq_two {v : Nat} (h1 : 64 ≤ v) (h2 : v ≤ 16383) : tier v = 2 := by
  rw [tier, if_neg (by omega), if_pos h2]

theorem tier_eq_four {v : Nat} (h1 : 16384 ≤ v) (h2 : v ≤ 1073741823) : tier v = 4 := by
  rw [tier, if_neg (by omega), if_neg (by omega), if_pos h2]

theorem tier_eq_eight {v : Nat} (h : 1073741824 ≤ v) : tier v = 8 := by
  rw [tier, if_neg (by omega), if_neg (by omega), if_neg (by omega)]

/-- Each tier begins where the one below it ends (R77, R111). -/
theorem tier_mono {v w : Nat} (h : v ≤ w) : tier v ≤ tier w := by
  unfold tier
  split_ifs <;> omega

/-- Settles O17: the boundary values by evaluation, the rest by the two laws of the tier. -/
theorem tierBoundaries : Obligations.TierBoundaries :=
  ⟨fun v _ h _ => ⟨tier_mono h, tier_mem_varintLengths v⟩, rfl, rfl, rfl, rfl, rfl, rfl, fun _ => rfl⟩

/-! ### How VLEN and VENC end -/

/-- A completion leaves the code it was given. -/
theorem statusCode_of_next {s t : State} {c : Code} {r : Results} {o : Host.Outcome State Fault Refusal}
    (ho : o = .next (finish c r s)) (ht : o = .next t) : t.statusCode = codeByte c := by
  rw [ho] at ht
  cases ht
  rfl

theorem exec_vlen_of_le {s : State} (h : s.valueIn.toNat ≤ max62) :
    exec .vlen s = .next (s.completed 0x00 s.outBuf 0 0 0 (tier s.valueIn.toNat) 0 0) := by
  rcases execVlen_cases s with ⟨hlt, -⟩ | ⟨-, he⟩
  · omega
  · exact he

theorem exec_vlen_of_lt {s : State} (h : max62 < s.valueIn.toNat) : exec .vlen s = .next (s.failed 0x02) := by
  rcases execVlen_cases s with ⟨-, he⟩ | ⟨hle, -⟩
  · exact he
  · omega

/-- Settles O7: VLEN completes with the tier, or fails from 2^62 on. -/
theorem vlenResult : Obligations.VlenResult := by
  refine ⟨decode_eq_ok_iff.2 rfl, fun s => ⟨fun h => ?_, fun h1 h2 => ?_, fun h1 h2 => ?_, fun h1 h2 => ?_, fun h => ?_,
    fun t ht => ?_⟩⟩
  · rw [exec_vlen_of_le (h.trans (by decide)), tier_eq_one h]
  · rw [exec_vlen_of_le (h2.trans (by decide)), tier_eq_two h1 h2]
  · rw [exec_vlen_of_le (h2.trans (by decide)), tier_eq_four h1 h2]
  · rw [exec_vlen_of_le h2, tier_eq_eight h1]
  · exact exec_vlen_of_lt ((by decide : max62 < 2 ^ 62).trans_le h)
  · rcases execVlen_cases s with ⟨-, he⟩ | ⟨-, he⟩ <;> rw [statusCode_of_next he ht] <;> decide

theorem exec_venc_of_lt {s : State} (hw : s.OutWindow) (hv : max62 < s.valueIn.toNat) :
    exec .venc s = .next (s.failed 0x02) := by
  rcases execVenc_cases s with ⟨hbad, -⟩ | ⟨-, -, he⟩ | ⟨-, hle, -⟩ | ⟨-, hle, -⟩
  · exact absurd hw hbad
  · exact he
  · omega
  · omega

theorem exec_venc_of_short {s : State} (hw : s.OutWindow) (hv : s.valueIn.toNat ≤ max62)
    (hc : s.outCap.toNat < tier s.valueIn.toNat) : exec .venc s = .next (s.failed 0x01) := by
  rcases execVenc_cases s with ⟨hbad, -⟩ | ⟨-, hlt, -⟩ | ⟨-, -, -, he⟩ | ⟨-, -, hfit, -⟩
  · exact absurd hw hbad
  · omega
  · exact he
  · omega

theorem exec_venc_of_fits {s : State} (hw : s.OutWindow) (hv : s.valueIn.toNat ≤ max62)
    (hc : tier s.valueIn.toNat ≤ s.outCap.toNat) :
    exec .venc s = .next (s.completed 0x00 (memWrite s.outBuf s.outOff.toNat (varintBytes s.valueIn.toNat))
      0 0 0 (tier s.valueIn.toNat) 0 0) := by
  rcases execVenc_cases s with ⟨hbad, -⟩ | ⟨-, hlt, -⟩ | ⟨-, -, hshort, -⟩ | ⟨-, -, -, he⟩
  · exact absurd hw hbad
  · omega
  · omega
  · exact he

/-- Settles O8: one lemma for each way VENC ends. -/
theorem vencResult : Obligations.VencResult := by
  refine ⟨decode_eq_ok_iff.2 rfl, fun s => ⟨exec_of_not_windowFor (i := .venc), exec_venc_of_lt, exec_venc_of_short,
    exec_venc_of_fits, fun t ht => ?_⟩⟩
  rcases execVenc_cases s with ⟨-, he⟩ | ⟨-, -, he⟩ | ⟨-, -, -, he⟩ | ⟨-, -, -, he⟩ <;>
    rw [statusCode_of_next he ht] <;> decide

/-- What CODE 0x00 after VENC says: every check passed, and the canonical bytes were stored and counted (R105, R106). -/
theorem venc_of_ok {s t : State} (h : exec .venc s = .next t) (hc : t.statusCode = 0x00) :
    s.OutWindow ∧ s.valueIn.toNat ≤ max62 ∧ tier s.valueIn.toNat ≤ s.outCap.toNat ∧
      t.outBuf = memWrite s.outBuf s.outOff.toNat (varintBytes s.valueIn.toNat) ∧
      t.resCount.toNat = tier s.valueIn.toNat := by
  rcases execVenc_cases s with ⟨-, he⟩ | ⟨-, -, he⟩ | ⟨-, -, -, he⟩ | ⟨hw, hv, hfit, he⟩
  · exact absurd ((statusCode_of_next he h).symm.trans hc) (by decide)
  · exact absurd ((statusCode_of_next he h).symm.trans hc) (by decide)
  · exact absurd ((statusCode_of_next he h).symm.trans hc) (by decide)
  · have hlt := (le_of_mem_varintLengths _ (tier_mem_varintLengths s.valueIn.toNat)).trans_lt (by decide : 8 < 2 ^ 64)
    cases he.symm.trans h
    exact ⟨hw, hv, hfit, rfl, (BitVec.toNat_ofNat ..).trans (Nat.mod_eq_of_lt hlt)⟩

/-- Settles O20: the bytes read back are the canonical ones. -/
theorem vencWritesTheCanonicalForm : Obligations.VencWritesTheCanonicalForm := by
  intro s t h hc
  obtain ⟨-, hv, -, hout, hcount⟩ := venc_of_ok h hc
  refine ⟨varintBytes s.valueIn.toNat, ?_, varintDecode_varintBytes hv, hcount⟩
  rw [hout, hcount, ← varintBytes_length]
  exact memRead_memWrite _ _ _

/-! ### How VDEC ends -/

theorem exec_vdec_of_error {s : State} {bs : List Byte} {e : VarIntError} (hw : s.InWindow)
    (hr : varintBytesRead (inSlice s) = some bs) (hd : varintDecode bs = .error e) :
    exec .vdec s = .next (s.failed 0x01) := by
  rcases execVdec_cases s with ⟨hbad, -⟩ | ⟨-, hnone, -⟩ | ⟨-, _, -, -, he⟩ | ⟨-, bs', _, _, hr', hd', -⟩
  · exact absurd hw hbad
  · cases hr.symm.trans hnone
  · exact he
  · cases hr.symm.trans hr'
    cases hd.symm.trans hd'

theorem exec_vdec_of_empty {s : State} (hw : s.InWindow) (h : s.inLen.toNat = 0) :
    exec .vdec s = .next (s.failed 0x01) := by
  have hslice : inSlice s = [] := by rw [inSlice, h]; rfl
  exact exec_vdec_of_error hw (by rw [hslice, varintBytesRead_nil]) varintDecode_nil

/-- The input slice by its first byte. -/
theorem inSlice_eq_cons {s : State} (h : 0 < s.inLen.toNat) :
    inSlice s = s.inBuf.read s.inOff.toNat :: memRead s.inBuf (s.inOff.toNat + 1) (s.inLen.toNat - 1) := by
  obtain ⟨n, hn⟩ : ∃ n, s.inLen.toNat = n + 1 := ⟨s.inLen.toNat - 1, by omega⟩
  rw [inSlice, hn]
  rfl

/-- A slice too short for its first byte's tag (R107). -/
theorem exec_vdec_of_short {s : State} {b : Byte} (hw : s.InWindow) (hpos : 0 < s.inLen.toNat)
    (hb : s.inBuf.read s.inOff.toNat = some b) (hshort : s.inLen.toNat < 2 ^ (tagField b).toNat) :
    exec .vdec s = .next (s.failed 0x01) := by
  have hread : varintBytesRead (inSlice s) = some [b] := by
    rw [inSlice_eq_cons hpos, hb]
    exact varintBytesRead_short (by rw [memRead_length]; omega)
  exact exec_vdec_of_error hw hread (varintDecode_singleton_short hpos hshort)

/-- A varint at the front of the slice (R107, R108). -/
theorem exec_vdec_of_prefix {s : State} {bs : List Byte} {v L : Nat} (hw : s.InWindow) (hp : bs.map some <+: inSlice s)
    (hd : varintDecode bs = .ok (v, L)) : exec .vdec s = .next (s.completed 0x00 s.outBuf v 0 0 L 0 0) := by
  have hread := varintBytesRead_of_prefix hd hp
  have hdec : varintDecode (bs.take L) = .ok (v, L) := varintDecode_of_prefix hd List.prefix_rfl
  rcases execVdec_cases s with ⟨hbad, -⟩ | ⟨-, hnone, -⟩ | ⟨-, bs', hr', hd', -⟩ | ⟨-, bs', _, _, hr', hd', he⟩
  · exact absurd hw hbad
  · cases hread.symm.trans hnone
  · cases hread.symm.trans hr'
    cases hdec.symm.trans hd'
  · cases hread.symm.trans hr'
    cases hdec.symm.trans hd'
    exact he

/-- A sequence of just the length its tag stands for decodes to `value_of` reduced to the value bits (R75). -/
theorem varintDecode_exact {b : Byte} {rest : List Byte} (hlen : (b :: rest).length = 2 ^ (tagField b).toNat) :
    varintDecode (b :: rest) =
      .ok (valueOf (b :: rest) % 2 ^ (8 * 2 ^ (tagField b).toNat - 2), 2 ^ (tagField b).toNat) := by
  obtain ⟨hvalue, -⟩ := valueAssemblyIsBigEndian b rest
  rw [List.length_cons] at hlen
  rw [varintDecode_cons, if_neg (by omega), List.take_of_length_le (by omega), hvalue, hlen]

/-- Settles O9: one lemma for each way VDEC ends on a written read set. -/
theorem vdecResult : Obligations.VdecResult := by
  refine ⟨decode_eq_ok_iff.2 rfl, fun s => ⟨exec_of_not_windowFor (i := .vdec), exec_vdec_of_empty,
    fun b => exec_vdec_of_short, fun b rest hw hlen hle hmem => ?_, fun t ht => ?_⟩⟩
  · have hfront : (b :: rest).map some = (inSlice s).take (2 ^ (tagField b).toNat) := by
      rw [inSlice, memRead_take, Nat.min_eq_left hle, hmem]
    exact exec_vdec_of_prefix hw (hfront ▸ List.take_prefix _ _) (varintDecode_exact hlen)
  · rcases execVdec_cases s with ⟨-, he⟩ | ⟨-, -, he⟩ | ⟨-, _, -, -, he⟩ | ⟨-, _, _, _, -, -, he⟩
    · rw [statusCode_of_next he ht]; decide
    · cases he.symm.trans ht
    · rw [statusCode_of_next he ht]; decide
    · rw [statusCode_of_next he ht]; decide

/-- Settles O18: the bytes decode whatever follows them, so VDEC completes with their value. -/
theorem nonCanonicalVarintAccepted : Obligations.NonCanonicalVarintAccepted := by
  intro L v trail hL hv
  have hd := varintDecode_varintBytesAt_append hL hv trail
  exact ⟨varintDecode_value_le hd, hd, fun s hw hslice => exec_vdec_of_prefix hw (hslice ▸ List.prefix_rfl) hd⟩

/-! ### The codes and the results -/

/-- A completed command leaves a code of the list of idle codes (R160). -/
theorem exec_statusCode_mem {i : Instr} {s t : State} (h : exec i s = .next t) : t.statusCode ∈ idleCodes := by
  have hend := exec_end i s
  rw [h] at hend
  cases hend with
  | error _ hlist => exact hlist
  | success _ _ => exact (by decide : codeByte .ok ∈ idleCodes)

/-- Settles O19: a decode fails BufferTooSmall only, and 0x03 and 0x23 are no idle codes. -/
theorem invalidEncodingNeverOccurs : Obligations.InvalidEncodingNeverOccurs := by
  refine ⟨fun s h => ?_, fun s h => ?_, fun i s t h => ?_⟩
  · cases varintDecode_error h
  · cases frameHeaderDecode_error_kind h
  · have hmem := exec_statusCode_mem h
    exact ⟨ne_of_mem_of_not_mem hmem (by decide), ne_of_mem_of_not_mem hmem (by decide)⟩

theorem Produces.value_le {p : Params} {i : Instr} {r : Results} (h : Produces p i r) : r.value ≤ max62 := by
  cases h with
  | vdec hv _ => exact hv
  | _ => exact Nat.zero_le _

/-- Settles O32: the bounds of the two results by the ways a command can end, the write index by VENC's own checks. -/
theorem varintResultsFit : Obligations.VarintResultsFit := by
  intro i s t hi h
  have hbounds : t.resValue.toNat ≤ max62 ∧ t.resCount.toNat ≤ 8 := by
    have hend := exec_end i s
    rw [h] at hend
    cases hend with
    | error _ _ => exact ⟨Nat.zero_le _, Nat.zero_le _⟩
    | success hr _ =>
      have hcount := le_of_mem_varintLengths _ (hr.count_mem_varintLengths hi)
      exact ⟨(toNat_ofNat_le _).trans hr.value_le, (toNat_ofNat_le _).trans hcount⟩
  obtain ⟨hvalue, hcount8⟩ := hbounds
  refine ⟨hvalue, hcount8, ?_⟩
  rintro rfl hc
  obtain ⟨⟨hoff, hcap⟩, -, hfit, -, hcount⟩ := venc_of_ok h hc
  omega

/-! ### A command is a function of its inputs -/

/-- Two states that agree on all a command reads: the parameters, the operand and window registers and the IN bytes (R115,
R144). -/
structure State.SameInputs (s u : State) : Prop where
  params : s.params = u.params
  valueIn : s.valueIn = u.valueIn
  tyIn : s.tyIn = u.tyIn
  lenIn : s.lenIn = u.lenIn
  inOff : s.inOff = u.inOff
  inLen : s.inLen = u.inLen
  outOff : s.outOff = u.outOff
  outCap : s.outCap = u.outCap
  inBuf : ∀ j, s.inBuf.read j = u.inBuf.read j

theorem State.SameInputs.inWindowOk {s u : State} (h : s.SameInputs u) : inWindowOk s = inWindowOk u := by
  simp only [Machine.inWindowOk, h.params, h.inOff, h.inLen]

theorem State.SameInputs.outWindowOk {s u : State} (h : s.SameInputs u) : outWindowOk s = outWindowOk u := by
  simp only [Machine.outWindowOk, h.params, h.outOff, h.outCap]

theorem State.SameInputs.inSlice {s u : State} (h : s.SameInputs u) : inSlice s = inSlice u := by
  rw [Machine.inSlice, Machine.inSlice, h.inOff, h.inLen]
  exact memRead_congr fun k _ => h.inBuf _

/-- Two commands end alike: with the same code, the same results and the same bytes stored at the same place, or both with
the fault. -/
inductive EndAlike (s u : State) : Host.Outcome State Fault Refusal → Host.Outcome State Fault Refusal → Prop where
  | finish (c : Code) (r : Results) (a : Nat) (bs : List Byte) :
      EndAlike s u (.next (finish c r (storeOut a bs s))) (.next (finish c r (storeOut a bs u)))
  | fault : EndAlike s u (.fault .readUnwrittenInput) (.fault .readUnwrittenInput)

/-- Completions that store nothing. -/
theorem EndAlike.finish_noStore {s u : State} (c : Code) (r : Results) :
    EndAlike s u (.next (Machine.finish c r s)) (.next (Machine.finish c r u)) :=
  .finish c r 0 []

/-- Commands that check the same window first (R54). -/
theorem EndAlike.checked {s u : State} {o o' : Host.Outcome State Fault Refusal} (windowOk : Bool) (h : EndAlike s u o o') :
    EndAlike s u (if windowOk then o else .next (raise .windowError s))
      (if windowOk then o' else .next (raise .windowError u)) := by
  cases windowOk with
  | false => exact .finish_noStore _ _
  | true => exact h

theorem execVlen_alike {s u : State} (h : s.SameInputs u) : EndAlike s u (execVlen s) (execVlen u) := by
  simp only [execVlen, h.valueIn]
  cases varintLen u.valueIn.toNat with
  | error e => exact .finish_noStore _ _
  | ok L => exact .finish_noStore _ _

theorem execVenc_alike {s u : State} (h : s.SameInputs u) : EndAlike s u (execVenc s) (execVenc u) := by
  simp only [execVenc, h.outWindowOk, h.valueIn, h.outCap, h.outOff]
  apply EndAlike.checked
  cases varintEncode u.valueIn.toNat u.outCap.toNat with
  | error e => exact .finish_noStore _ _
  | ok bs => exact .finish _ _ _ bs

theorem execVdec_alike {s u : State} (h : s.SameInputs u) : EndAlike s u (execVdec s) (execVdec u) := by
  simp only [execVdec, h.inWindowOk, h.inSlice]
  apply EndAlike.checked
  cases varintBytesRead (inSlice u) with
  | none => exact .fault
  | some bs =>
    dsimp only
    cases varintDecode bs with
    | error e => exact .finish_noStore _ _
    | ok p => exact .finish_noStore _ _

theorem execFhdec_alike {s u : State} (h : s.SameInputs u) : EndAlike s u (execFhdec s) (execFhdec u) := by
  simp only [execFhdec, h.inWindowOk, h.inSlice]
  apply EndAlike.checked
  cases headerBytesRead (inSlice u) with
  | none => exact .fault
  | some bs =>
    dsimp only
    cases frameHeaderDecode bs with
    | error e => exact .finish_noStore _ _
    | ok p => exact .finish_noStore _ _

theorem execFhenc_alike {s u : State} (h : s.SameInputs u) : EndAlike s u (execFhenc s) (execFhenc u) := by
  simp only [execFhenc, h.outWindowOk, h.tyIn, h.lenIn, h.outCap, h.outOff]
  apply EndAlike.checked
  cases frameHeaderEncode u.tyIn.toNat u.lenIn.toNat u.outCap.toNat with
  | error e => exact .finish_noStore _ _
  | ok bs => exact .finish _ _ _ bs

theorem execFdec_alike {s u : State} (h : s.SameInputs u) : EndAlike s u (execFdec s) (execFdec u) := by
  simp only [execFdec, h.inWindowOk, h.inSlice, h.inLen, h.inOff]
  apply EndAlike.checked
  cases headerBytesRead (inSlice u) with
  | none => exact .fault
  | some bs =>
    dsimp only
    cases frameHeaderDecode bs with
    | error e => exact .finish_noStore _ _
    | ok p =>
      dsimp only
      cases frameLocate p.1 p.2 u.inLen.toNat with
      | error e => exact .finish_noStore _ _
      | ok q => exact .finish_noStore _ _

theorem exec_alike (i : Instr) {s u : State} (h : s.SameInputs u) : EndAlike s u (exec i s) (exec i u) := by
  cases i with
  | vlen => exact execVlen_alike h
  | venc => exact execVenc_alike h
  | vdec => exact execVdec_alike h
  | fhdec => exact execFhdec_alike h
  | fhenc => exact execFhenc_alike h
  | fdec => exact execFdec_alike h

/-- Settles O31: commands on the same inputs end alike. -/
theorem commandsDependOnlyOnTheirInputs : Obligations.CommandsDependOnlyOnTheirInputs := by
  intro i s u hparams hvalue hty hlen hinOff hinLen houtOff houtCap hin
  have halike := exec_alike i ⟨hparams, hvalue, hty, hlen, hinOff, hinLen, houtOff, houtCap, hin⟩
  generalize exec i s = o, exec i u = o' at halike ⊢
  cases halike with
  | finish c r a bs => exact .inl ⟨_, _, a, bs, rfl, rfl, rfl, rfl, rfl, rfl, rfl, rfl, rfl, rfl, rfl⟩
  | fault => exact .inr ⟨rfl, rfl⟩

end Sys2Proof.Machine
end

section
/-! PROOFS. The obligations of 41_frame.md: the header round trip (R141, R142), what FHDEC, FHENC and FDEC end with (R132 to R138),
the payload's place (R139, R140), the bounds of the results (R143), and the agreement of the two decodes (R145). -/

namespace Sys2Proof.Machine

/-! ### The pure frame codec -/

/-- Both fields in the domain and room for both varints: the header encode gives their canonical bytes (R131). -/
theorem frameHeaderEncode_of_fits {ty len cap : Nat} (hty : ty ≤ max62) (hlen : len ≤ max62)
    (hcap : tier ty + tier len ≤ cap) : frameHeaderEncode ty len cap = .ok (varintBytes ty ++ varintBytes len) := by
  simp only [frameHeaderEncode, varintLen_of_le hty, varintLen_of_le hlen, wrapVarint_ok, if_neg (Nat.not_lt.2 hcap)]

/-- The two canonical varints decode to the header, and the decode takes all their bytes (R141). -/
theorem frameHeaderDecode_varintBytes {ty len : Nat} (hty : ty ≤ max62) (hlen : len ≤ max62) :
    frameHeaderDecode (varintBytes ty ++ varintBytes len) =
      .ok ({ ty := ty, len := len }, (varintBytes ty ++ varintBytes len).length) := by
  rw [frameHeaderDecode_append (varintDecode_varintBytes hty) (varintBytes_length ty), varintDecode_varintBytes hlen]
  simp

/-- What follows a complete varint does not matter (R102). -/
theorem varintDecode_append_of_ok {bs : List Byte} {v L : Nat} (h : varintDecode bs = .ok (v, L)) (trail : List Byte) :
    varintDecode (bs ++ trail) = .ok (v, L) :=
  varintDecode_of_prefix h ((List.take_prefix _ _).trans (List.prefix_append _ _))

/-- What follows a complete header does not matter (R130). -/
theorem frameHeaderDecode_append_of_ok {hb : List Byte} {h : FrameHeader} {n : Nat}
    (hd : frameHeaderDecode hb = .ok (h, n)) (trail : List Byte) : frameHeaderDecode (hb ++ trail) = .ok (h, n) := by
  obtain ⟨a, b, hty, hlen, rfl⟩ := frameHeaderDecode_ok hd
  obtain ⟨-, -, -, -, ha, -⟩ := varintDecode_ok hty
  refine frameHeaderDecode_of_ok (varintDecode_append_of_ok hty trail) ?_
  rw [List.drop_append_of_le_length ha]
  exact varintDecode_append_of_ok hlen trail

/-- A frame decode of a header and what follows it: the payload check alone decides (R137, R138). -/
theorem frameDecode_append {hb : List Byte} {h : FrameHeader} (hd : frameHeaderDecode hb = .ok (h, hb.length))
    (trail : List Byte) :
    frameDecode (hb ++ trail) =
      if trail.length < h.len then .error .lengthExceedsInput
      else .ok (h, trail.take h.len, hb.length, hb.length + h.len) := by
  have hheader := frameHeaderDecode_append_of_ok hd trail
  by_cases hshort : trail.length < h.len <;> simp [frameDecode, hheader, frameLocate, hshort]

/-- Settles O21: the encoded header decodes to its fields, and the payload fills the declared length exactly. -/
theorem frameRoundTrip : Obligations.FrameRoundTrip := by
  intro ty len cap p hty hlen hcap hp
  refine ⟨_, frameHeaderEncode_of_fits hty hlen hcap, ?_⟩
  rw [frameDecode_append (frameHeaderDecode_varintBytes hty hlen), if_neg (by simp [hp]), List.take_of_length_le hp.le]

/-! ### What a decode makes of a slice -/

/-- The varint decode of the bytes it reads of a slice; none if one of them is unwritten (R55, R102). -/
def varintRead (sl : List (Option Byte)) : Option (Except VarIntError (Nat × Nat)) :=
  (varintBytesRead sl).map varintDecode

/-- The header decode of the bytes it reads of a slice; none if one of them is unwritten (R55, R130). -/
def headerRead (sl : List (Option Byte)) : Option (Except FrameError (FrameHeader × Nat)) :=
  (headerBytesRead sl).map frameHeaderDecode

theorem varintRead_nil : varintRead [] = some (.error .bufferTooSmall) := rfl

/-- A range of a buffer too short for its first byte's tag. -/
theorem varintRead_memRead_short {m : Memory} {off n : Nat} {b : Byte} (hpos : 0 < n) (hb : m.read off = some b)
    (hshort : n < 2 ^ (tagField b).toNat) : varintRead (memRead m off n) = some (.error .bufferTooSmall) := by
  obtain ⟨k, rfl⟩ : ∃ k, n = k + 1 := ⟨n - 1, by omega⟩
  rw [varintRead, memRead, hb, varintBytesRead_short (by rwa [memRead_length]), Option.map_some,
    varintDecode_singleton_short hpos hshort]

/-- A varint at the front of a slice. -/
theorem varintRead_of_prefix {sl : List (Option Byte)} {bs : List Byte} {v L : Nat} (hp : bs.map some <+: sl)
    (hd : varintDecode bs = .ok (v, L)) : varintRead sl = some (.ok (v, L)) := by
  rw [varintRead, varintBytesRead_of_prefix hd hp, Option.map_some, varintDecode_of_prefix hd List.prefix_rfl]

/-- The first varint is truncated: so is the header. -/
theorem headerRead_of_first_error {sl : List (Option Byte)} {e : VarIntError} (h : varintRead sl = some (.error e)) :
    headerRead sl = some (.error (.varint e)) := by
  obtain ⟨bs, hr, hd⟩ := Option.map_eq_some_iff.1 h
  simp [headerRead, headerBytesRead_first_error hr hd, frameHeaderDecode, hd]

/-- The first varint decodes: the header is what the second one, read after it, makes of it. -/
theorem headerRead_of_first_ok {sl : List (Option Byte)} {ty a : Nat} {r : Except VarIntError (Nat × Nat)}
    (h1 : varintRead sl = some (.ok (ty, a))) (h2 : varintRead (sl.drop a) = some r) :
    headerRead sl = some ((wrapVarint r).map fun q => ({ ty := ty, len := q.1 }, a + q.2)) := by
  obtain ⟨bs, hr, hd⟩ := Option.map_eq_some_iff.1 h1
  obtain ⟨bs', hr', rfl⟩ := Option.map_eq_some_iff.1 h2
  obtain ⟨hlen, -, -⟩ := varintBytesRead_decode_ok hr hd
  rw [headerRead, headerBytesRead_first_ok hr hd, hr', Option.map_some, Option.map_some, frameHeaderDecode_append hd hlen]
  cases varintDecode bs' <;> rfl

/-- A header at the front of a slice. -/
theorem headerRead_of_prefix {sl : List (Option Byte)} {hb : List Byte} {h : FrameHeader} {n : Nat}
    (hp : hb.map some <+: sl) (hd : frameHeaderDecode hb = .ok (h, n)) : headerRead sl = some (.ok (h, n)) := by
  obtain ⟨a, b, hty, hlen, rfl⟩ := frameHeaderDecode_ok hd
  have hp2 : (hb.drop a).map some <+: sl.drop a := by
    rw [List.map_drop]
    exact hp.drop a
  exact headerRead_of_first_ok (varintRead_of_prefix hp hty) (varintRead_of_prefix hp2 hlen)

/-- What a header read from a slice says of the slice: its bytes are written and stand at the front. -/
theorem headerRead_ok {sl : List (Option Byte)} {h : FrameHeader} {n : Nat} (hr : headerRead sl = some (.ok (h, n))) :
    n ≤ sl.length ∧ ∃ hb, hb.map some = sl.take n ∧ frameHeaderDecode hb = .ok (h, n) := by
  obtain ⟨hb, hbs, hd⟩ := Option.map_eq_some_iff.1 hr
  obtain ⟨-, hfront, hle, -⟩ := headerBytesRead_decode_ok hbs hd
  exact ⟨hle, hb, hfront, hd⟩

/-! ### The header of the input slice -/

theorem inSlice_length (s : State) : (inSlice s).length = s.inLen.toNat := memRead_length _ _ _

theorem inSlice_drop (s : State) (k : Nat) :
    (inSlice s).drop k = memRead s.inBuf (s.inOff.toNat + k) (s.inLen.toNat - k) := memRead_drop _ _ _ _

/-- The header decode of the input slice fails: the slice ends before the header does (R132, R133). -/
def State.HeaderTruncated (s : State) : Prop := headerRead (inSlice s) = some (.error (.varint .bufferTooSmall))

theorem State.HeaderTruncated.of_empty {s : State} (h : s.inLen.toNat = 0) : s.HeaderTruncated := by
  refine headerRead_of_first_error ?_
  rw [inSlice, h]
  exact varintRead_nil

theorem State.HeaderTruncated.of_short {s : State} {b : Byte} (hpos : 0 < s.inLen.toNat)
    (hb : s.inBuf.read s.inOff.toNat = some b) (hshort : s.inLen.toNat < 2 ^ (tagField b).toNat) : s.HeaderTruncated :=
  headerRead_of_first_error (varintRead_memRead_short hpos hb hshort)

theorem State.HeaderTruncated.after_first {s : State} {bs : List Byte} {ty a : Nat} (hp : bs.map some <+: inSlice s)
    (hd : varintDecode bs = .ok (ty, a)) (hend : s.inLen.toNat = a) : s.HeaderTruncated := by
  refine headerRead_of_first_ok (varintRead_of_prefix hp hd) (r := .error .bufferTooSmall) ?_
  rw [List.drop_of_length_le (by rw [inSlice_length, hend])]
  exact varintRead_nil

theorem State.HeaderTruncated.in_second {s : State} {bs : List Byte} {ty a : Nat} {b : Byte}
    (hp : bs.map some <+: inSlice s) (hd : varintDecode bs = .ok (ty, a)) (ha : a < s.inLen.toNat)
    (hb : s.inBuf.read (s.inOff.toNat + a) = some b) (hshort : s.inLen.toNat - a < 2 ^ (tagField b).toNat) :
    s.HeaderTruncated := by
  refine headerRead_of_first_ok (varintRead_of_prefix hp hd) (r := .error .bufferTooSmall) ?_
  rw [inSlice_drop]
  exact varintRead_memRead_short (by omega) hb hshort

/-- Two varints one after the other at the front of the slice are its header. -/
theorem headerRead_of_prefixes {sl : List (Option Byte)} {bs bs' : List Byte} {ty a len b : Nat}
    (hp : bs.map some <+: sl) (hd : varintDecode bs = .ok (ty, a)) (hp' : bs'.map some <+: sl.drop a)
    (hd' : varintDecode bs' = .ok (len, b)) : headerRead sl = some (.ok ({ ty := ty, len := len }, a + b)) :=
  headerRead_of_first_ok (varintRead_of_prefix hp hd) (varintRead_of_prefix hp' hd')

/-! ### How FHDEC ends -/

theorem exec_fhdec_of_truncated {s : State} (hw : s.InWindow) (ht : s.HeaderTruncated) :
    exec .fhdec s = .next (s.failed 0x21) := by
  obtain ⟨bs, hr, hd⟩ := Option.map_eq_some_iff.1 ht
  rcases execFhdec_cases s with ⟨hbad, -⟩ | ⟨-, hnone, -⟩ | ⟨-, _, -, -, he⟩ | ⟨-, _, _, _, hr', hd', -⟩
  · exact absurd hw hbad
  · cases hr.symm.trans hnone
  · exact he
  · cases hr.symm.trans hr'
    cases hd.symm.trans hd'

theorem exec_fhdec_of_header {s : State} {h : FrameHeader} {n : Nat} (hw : s.InWindow)
    (hh : headerRead (inSlice s) = some (.ok (h, n))) :
    exec .fhdec s = .next (s.completed 0x00 s.outBuf 0 h.ty h.len n 0 0) := by
  obtain ⟨bs, hr, hd⟩ := Option.map_eq_some_iff.1 hh
  rcases execFhdec_cases s with ⟨hbad, -⟩ | ⟨-, hnone, -⟩ | ⟨-, _, hr', hd', -⟩ | ⟨-, _, _, _, hr', hd', he⟩
  · exact absurd hw hbad
  · cases hr.symm.trans hnone
  · cases hr.symm.trans hr'
    cases hd.symm.trans hd'
  · cases hr.symm.trans hr'
    cases hd.symm.trans hd'
    exact he

/-- Settles O10: the four truncations and the success are what the slice makes of its header. -/
theorem fhdecResult : Obligations.FhdecResult := by
  refine ⟨decode_eq_ok_iff.2 rfl, fun bs e => frameHeaderDecode_error_kind, fun s => ⟨exec_of_not_windowFor (i := .fhdec),
    fun hw h => exec_fhdec_of_truncated hw (.of_empty h),
    fun b hw hpos hb hshort => exec_fhdec_of_truncated hw (.of_short hpos hb hshort),
    fun bs ty a hw hp hd => ⟨fun hend => exec_fhdec_of_truncated hw (.after_first hp hd hend),
      fun b ha hb hshort => exec_fhdec_of_truncated hw (.in_second hp hd ha hb hshort),
      fun bs' len b hp' hd' => exec_fhdec_of_header hw (headerRead_of_prefixes hp hd hp' hd')⟩,
    fun t ht => ?_⟩⟩
  rcases execFhdec_cases s with ⟨-, he⟩ | ⟨-, -, he⟩ | ⟨-, _, -, -, he⟩ | ⟨-, _, _, _, -, -, he⟩
  · rw [statusCode_of_next he ht]; decide
  · cases he.symm.trans ht
  · rw [statusCode_of_next he ht]; decide
  · rw [statusCode_of_next he ht]; decide

/-! ### How FHENC ends -/

theorem raise_statusCode_ne_zero {c : Code} (hc : c ≠ .ok) (s : State) : (raise c s).statusCode ≠ 0x00 :=
  mt codeByte_eq_zero_iff.1 hc

theorem exec_fhenc_of_large {s : State} (hw : s.OutWindow) (hlarge : max62 < s.tyIn.toNat ∨ max62 < s.lenIn.toNat) :
    exec .fhenc s = .next (s.failed 0x22) := by
  rcases execFhenc_cases s with ⟨hbad, -⟩ | ⟨-, -, he⟩ | ⟨-, hty, hlen, -⟩ | ⟨-, hty, hlen, -⟩
  · exact absurd hw hbad
  · exact he
  · omega
  · omega

theorem exec_fhenc_of_short {s : State} (hw : s.OutWindow) (hty : s.tyIn.toNat ≤ max62) (hlen : s.lenIn.toNat ≤ max62)
    (hshort : s.outCap.toNat < tier s.tyIn.toNat + tier s.lenIn.toNat) : exec .fhenc s = .next (s.failed 0x11) := by
  rcases execFhenc_cases s with ⟨hbad, -⟩ | ⟨-, hlarge, -⟩ | ⟨-, -, -, -, he⟩ | ⟨-, -, -, hfit, -⟩
  · exact absurd hw hbad
  · omega
  · exact he
  · omega

theorem exec_fhenc_of_fits {s : State} (hw : s.OutWindow) (hty : s.tyIn.toNat ≤ max62) (hlen : s.lenIn.toNat ≤ max62)
    (hfit : tier s.tyIn.toNat + tier s.lenIn.toNat ≤ s.outCap.toNat) :
    exec .fhenc s = .next (s.completed 0x00
      (memWrite s.outBuf s.outOff.toNat (varintBytes s.tyIn.toNat ++ varintBytes s.lenIn.toNat))
      0 0 0 (tier s.tyIn.toNat + tier s.lenIn.toNat) 0 0) := by
  rcases execFhenc_cases s with ⟨hbad, -⟩ | ⟨-, hlarge, -⟩ | ⟨-, -, -, hshort, -⟩ | ⟨-, -, -, -, he⟩
  · exact absurd hw hbad
  · omega
  · omega
  · exact he

/-- Settles O11: one lemma for each way FHENC ends. -/
theorem fhencResult : Obligations.FhencResult := by
  refine ⟨decode_eq_ok_iff.2 rfl, fun s => ⟨exec_of_not_windowFor (i := .fhenc), exec_fhenc_of_large, exec_fhenc_of_short,
    exec_fhenc_of_fits, fun t ht => ?_⟩⟩
  rcases execFhenc_cases s with ⟨-, he⟩ | ⟨-, -, he⟩ | ⟨-, -, -, -, he⟩ | ⟨-, -, -, -, he⟩ <;>
    rw [statusCode_of_next he ht] <;> decide

/-- The combined length of two tiers fits RES_COUNT. -/
theorem toNat_ofNat_tiers (v w : Nat) : (BitVec.ofNat 64 (tier v + tier w)).toNat = tier v + tier w := by
  have hv := le_of_mem_varintLengths _ (tier_mem_varintLengths v)
  have hw := le_of_mem_varintLengths _ (tier_mem_varintLengths w)
  rw [BitVec.toNat_ofNat, Nat.mod_eq_of_lt (by omega)]

/-- Settles O25: an error stores nothing, and fits the window and the domain only if the capacity check failed; a success
stores both varints. -/
theorem fhencIsAtomic : Obligations.FhencIsAtomic := by
  intro s t h
  rcases execFhenc_cases s with ⟨hbad, he⟩ | ⟨-, hlarge, he⟩ | ⟨-, -, -, hshort, he⟩ | ⟨-, -, -, -, he⟩ <;>
    cases he.symm.trans h
  · exact .inr ⟨raise_statusCode_ne_zero (by decide) s, rfl, fun hw => absurd hw hbad⟩
  · exact .inr ⟨raise_statusCode_ne_zero (by decide) s, rfl, fun _ hty hlen => by omega⟩
  · exact .inr ⟨raise_statusCode_ne_zero (by decide) s, rfl, fun _ _ _ => hshort⟩
  · have hlen := State.encoded_fhenc_length s
    refine .inl ⟨rfl, toNat_ofNat_tiers _ _, ?_, fun j hj => ?_⟩
    · rw [← hlen]
      exact memRead_memWrite _ _ _
    · exact exec_outBuf_outside h (.inr (hlen.symm ▸ hj))

/-! ### How FDEC ends -/

theorem exec_fdec_of_truncated {s : State} (hw : s.InWindow) (ht : s.HeaderTruncated) :
    exec .fdec s = .next (s.failed 0x21) := by
  obtain ⟨bs, hr, hd⟩ := Option.map_eq_some_iff.1 ht
  rcases execFdec_cases s with ⟨hbad, -⟩ | ⟨-, hnone, -⟩ | ⟨-, _, -, -, he⟩ | ⟨-, _, _, _, hr', hd', -⟩
  · exact absurd hw hbad
  · cases hr.symm.trans hnone
  · exact he
  · cases hr.symm.trans hr'
    cases hd.symm.trans hd'

/-- FDEC once the header has decoded: the payload check alone decides (R137, R138). -/
theorem exec_fdec_of_header {s : State} {h : FrameHeader} {n : Nat} (hw : s.InWindow)
    (hh : headerRead (inSlice s) = some (.ok (h, n))) :
    (s.inLen.toNat - n < h.len → exec .fdec s = .next (s.failed 0x12)) ∧
    (h.len ≤ s.inLen.toNat - n → exec .fdec s =
      .next (s.completed 0x00 s.outBuf 0 h.ty h.len (n + h.len) (s.inOff.toNat + n) h.len)) := by
  obtain ⟨bs, hr, hd⟩ := Option.map_eq_some_iff.1 hh
  rcases execFdec_cases s with
    ⟨hbad, -⟩ | ⟨-, hnone, -⟩ | ⟨-, _, hr', hd', -⟩ | ⟨-, _, _, _, hr', hd', hcheck⟩
  · exact absurd hw hbad
  · cases hr.symm.trans hnone
  · cases hr.symm.trans hr'
    cases hd.symm.trans hd'
  · cases hr.symm.trans hr'
    cases hd.symm.trans hd'
    rcases hcheck with ⟨hlong, he⟩ | ⟨hfits, he⟩
    · exact ⟨fun _ => he, fun _ => by omega⟩
    · exact ⟨fun _ => by omega, fun _ => he⟩

/-- Settles O12: the truncations are FHDEC's, and a header at the front of the slice leaves the payload check. -/
theorem fdecResult : Obligations.FdecResult := by
  refine ⟨decode_eq_ok_iff.2 rfl, fun s => ⟨exec_of_not_windowFor (i := .fdec),
    fun hw h => exec_fdec_of_truncated hw (.of_empty h),
    fun b hw hpos hb hshort => exec_fdec_of_truncated hw (.of_short hpos hb hshort),
    fun bs ty a hw hp hd => ⟨fun hend => exec_fdec_of_truncated hw (.after_first hp hd hend),
      fun b ha hb hshort => exec_fdec_of_truncated hw (.in_second hp hd ha hb hshort),
      fun bs' len b hp' hd' => exec_fdec_of_header hw (headerRead_of_prefixes hp hd hp' hd')⟩,
    fun t ht => ?_⟩⟩
  rcases execFdec_cases s with ⟨-, he⟩ | ⟨-, -, he⟩ | ⟨-, _, -, -, he⟩ | ⟨-, _, _, _, -, -, ⟨-, he⟩ | ⟨-, he⟩⟩
  · rw [statusCode_of_next he ht]; decide
  · cases he.symm.trans ht
  all_goals rw [statusCode_of_next he ht]; decide

/-- Settles O22: the header decodes whatever follows it, and the payload check counts what follows. -/
theorem overReadGuard : Obligations.OverReadGuard := by
  intro hb trail h hd hshort
  refine ⟨(frameDecode_append hd trail).trans (if_pos hshort), fun s hw hslice => ?_⟩
  have hlen : s.inLen.toNat = hb.length + trail.length := by
    rw [← inSlice_length, hslice, List.length_map, List.length_append]
  have hprefix : hb.map some <+: inSlice s := by
    rw [hslice, List.map_append]
    exact List.prefix_append _ _
  exact (exec_fdec_of_header hw (headerRead_of_prefix hprefix hd)).1 (by omega)

/-! ### A successful FDEC -/

/-- FDEC takes `s` to `t` with CODE 0x00: it reads the header `h` in `n` bytes, and the payload lies in the slice (R137, R139). -/
structure FdecLocates (s t : State) (h : FrameHeader) (n : Nat) : Prop where
  window : s.InWindow
  header : headerRead (inSlice s) = some (.ok (h, n))
  fits : n + h.len ≤ s.inLen.toNat
  state : t = s.completed 0x00 s.outBuf 0 h.ty h.len (n + h.len) (s.inOff.toNat + n) h.len

theorem fdecLocates_of_ok {s t : State} (h : exec .fdec s = .next t) (hc : t.statusCode = 0x00) :
    ∃ hd n, FdecLocates s t hd n := by
  rcases execFdec_cases s with
    ⟨-, he⟩ | ⟨-, -, he⟩ | ⟨-, _, -, -, he⟩ | ⟨hw, bs, hd, n, hr, hdec, ⟨-, he⟩ | ⟨hfits, he⟩⟩ <;> cases he.symm.trans h
  · exact absurd hc (raise_statusCode_ne_zero (by decide) s)
  · exact absurd hc (raise_statusCode_ne_zero (by decide) s)
  · exact absurd hc (raise_statusCode_ne_zero (by decide) s)
  · have hheader : headerRead (inSlice s) = some (.ok (hd, n)) := Option.map_eq_some_iff.2 ⟨bs, hr, hdec⟩
    obtain ⟨hn, -⟩ := headerRead_ok hheader
    rw [inSlice_length] at hn
    exact ⟨hd, n, hw, hheader, by omega, rfl⟩

theorem FdecLocates.exec_eq {s t : State} {h : FrameHeader} {n : Nat} (hl : FdecLocates s t h n) :
    exec .fdec s = .next t := by
  have hfits := hl.fits
  rw [hl.state]
  exact (exec_fdec_of_header hl.window hl.header).2 (by omega)

/-- The header's fields lie in the varint domain and its length is one of R80's. -/
theorem headerRead_bounds {sl : List (Option Byte)} {h : FrameHeader} {n : Nat}
    (hr : headerRead sl = some (.ok (h, n))) : h.ty ≤ max62 ∧ h.len ≤ max62 ∧ n ∈ headerLengths := by
  obtain ⟨-, _, -, hd⟩ := headerRead_ok hr
  exact frameHeaderDecode_bounds hd

/-- The results a successful FDEC leaves, as numbers: none of them wraps (R143). -/
theorem FdecLocates.results {s t : State} {h : FrameHeader} {n : Nat} (hp : s.params.wf = true)
    (hl : FdecLocates s t h n) :
    t.resLen.toNat = h.len ∧ t.resCount.toNat = n + h.len ∧ t.resPayloadOff.toNat = s.inOff.toNat + n ∧
      t.resPayloadLen.toNat = h.len := by
  obtain ⟨⟨hoff, hlen⟩, -, hfits, rfl⟩ := hl
  obtain ⟨-, -, hmax, -, -⟩ := (Params.wf_iff _).1 hp
  have hwraps : ∀ k, k ≤ 65536 → (BitVec.ofNat 64 k).toNat = k := fun k hk => by
    rw [BitVec.toNat_ofNat, Nat.mod_eq_of_lt (by omega)]
  exact ⟨hwraps _ (by omega), hwraps _ (by omega), hwraps _ (by omega), hwraps _ (by omega)⟩

/-- Settles O34: the view is what follows the header in the slice. -/
theorem payloadLocation : Obligations.PayloadLocation := by
  intro s t hp he hc
  obtain ⟨h, n, hl⟩ := fdecLocates_of_ok he hc
  obtain ⟨-, hcount, hpoff, hplen⟩ := hl.results hp
  have hfits := hl.fits
  have hsub : n + h.len - h.len = n := Nat.add_sub_cancel n h.len
  have hin : t.inBuf = s.inBuf := exec_keeps_inBuf he
  obtain ⟨hlen, hout⟩ : t.resPayloadLen = t.resLen ∧ t.outBuf = s.outBuf := by
    rw [hl.state]
    exact ⟨rfl, rfl⟩
  refine ⟨hlen, hout, hin, by omega, by omega, by omega, ?_⟩
  rw [payloadView, hin, hcount, hpoff, hplen, hsub, inSlice_drop, memRead_take, Nat.min_eq_left (by omega)]

/-- The header of a slice is a matter of its first `n` bytes. -/
theorem headerRead_of_take {sl sl' : List (Option Byte)} {h : FrameHeader} {n : Nat}
    (hr : headerRead sl = some (.ok (h, n))) (hp : sl.take n <+: sl') : headerRead sl' = some (.ok (h, n)) := by
  obtain ⟨-, hb, hfront, hd⟩ := headerRead_ok hr
  exact headerRead_of_prefix (hfront ▸ hp) hd

/-- A successful FDEC with other IN contents from the payload on. -/
theorem FdecLocates.withInBuf {s t : State} {h : FrameHeader} {n : Nat} (hl : FdecLocates s t h n) {m : Memory}
    (hm : ∀ j < s.inOff.toNat + n, m.read j = s.inBuf.read j) :
    FdecLocates { s with inBuf := m } { t with inBuf := m } h n := by
  obtain ⟨hw, hh, hfits, rfl⟩ := hl
  have hfront : (inSlice s).take n <+: inSlice { s with inBuf := m } := by
    have htake : (inSlice s).take n = (inSlice { s with inBuf := m }).take n := by
      rw [inSlice, inSlice, memRead_take, memRead_take, Nat.min_eq_left (by omega)]
      exact memRead_congr fun k hk => (hm _ (by omega)).symm
    rw [htake]
    exact List.take_prefix _ _
  exact ⟨hw, headerRead_of_take hh hfront, hfits, rfl⟩

/-- Settles O35: the header is read from the bytes before the payload, and the payload check looks at no byte. -/
theorem fdecReadsNoPayloadByte : Obligations.FdecReadsNoPayloadByte := by
  intro s t m hp he hc hm
  obtain ⟨h, n, hl⟩ := fdecLocates_of_ok he hc
  obtain ⟨hlen, hcount, hpoff, -⟩ := hl.results hp
  have hfits := hl.fits
  rw [hpoff] at hm
  exact ⟨(hl.withInBuf hm).exec_eq, by omega⟩

/-! ### The results of the frame commands -/

theorem fhdec_count_le {s t : State} (h : exec .fhdec s = .next t) : t.resCount.toNat ≤ s.inLen.toNat := by
  rcases execFhdec_cases s with ⟨-, he⟩ | ⟨-, -, he⟩ | ⟨-, _, -, -, he⟩ | ⟨-, _, _, n, hr, hd, he⟩ <;>
    cases he.symm.trans h
  · exact Nat.zero_le _
  · exact Nat.zero_le _
  · obtain ⟨-, -, hn, -⟩ := headerBytesRead_decode_ok hr hd
    rw [inSlice_length] at hn
    exact (toNat_ofNat_le n).trans hn

/-- Settles O33: the bounds of every command's results, and for FDEC what its success says. -/
theorem frameResultsFit : Obligations.FrameResultsFit := by
  intro i s t hp _ h
  have hbounds : t.resTy.toNat ≤ max62 ∧ t.resLen.toNat ≤ max62 ∧
      (i = .fhdec ∨ i = .fhenc → t.resCount.toNat ≤ 16) := by
    have hend := exec_end i s
    rw [h] at hend
    cases hend with
    | error _ _ => exact ⟨Nat.zero_le _, Nat.zero_le _, fun _ => Nat.zero_le _⟩
    | success hr _ =>
      have hfits := hr.fits hp
      exact ⟨(toNat_ofNat_le _).trans hfits.ty, (toNat_ofNat_le _).trans hfits.len,
        fun hi => (toNat_ofNat_le _).trans (le_of_mem_headerLengths _ (hr.count_mem_headerLengths hi))⟩
  obtain ⟨hty, hlen, hcount⟩ := hbounds
  refine ⟨hty, hlen, hcount, ?_, ?_⟩
  · rintro rfl
    exact fhdec_count_le h
  · rintro rfl hc
    obtain ⟨hd, n, hl⟩ := fdecLocates_of_ok h hc
    obtain ⟨hresLen, hresCount, hresOff, -⟩ := hl.results hp
    obtain ⟨-, -, hn⟩ := headerRead_bounds hl.header
    have hn16 := le_of_mem_headerLengths n hn
    have hfits := hl.fits
    obtain ⟨hoff, hwin⟩ := hl.window
    obtain ⟨-, -, hmax, -, -⟩ := (Params.wf_iff _).1 hp
    exact ⟨by omega, by omega, by omega, by omega, by omega, by omega, hmax⟩

/-! ### Codes, and the agreement of the two decodes -/

/-- The codes a command completes with (R160, the column "raised by"). -/
def commandCodes : Instr → List Byte
  | .vlen => [0x00, 0x02]
  | .venc => [0x00, 0x01, 0x02, 0xF2]
  | .vdec => [0x00, 0x01, 0xF2]
  | .fhdec => [0x00, 0x21, 0xF2]
  | .fhenc => [0x00, 0x11, 0x22, 0xF2]
  | .fdec => [0x00, 0x12, 0x21, 0xF2]

theorem exec_statusCode_mem_commandCodes {i : Instr} {s t : State} (h : exec i s = .next t) :
    t.statusCode ∈ commandCodes i := by
  cases i with
  | vlen =>
    obtain ⟨-, hall⟩ := vlenResult
    obtain ⟨-, -, -, -, -, hcode⟩ := hall s
    exact hcode t h
  | venc =>
    obtain ⟨-, hall⟩ := vencResult
    obtain ⟨-, -, -, -, hcode⟩ := hall s
    exact hcode t h
  | vdec =>
    obtain ⟨-, hall⟩ := vdecResult
    obtain ⟨-, -, -, -, hcode⟩ := hall s
    exact hcode t h
  | fhdec =>
    obtain ⟨-, -, hall⟩ := fhdecResult
    obtain ⟨-, -, -, -, hcode⟩ := hall s
    exact hcode t h
  | fhenc =>
    obtain ⟨-, hall⟩ := fhencResult
    obtain ⟨-, -, -, -, hcode⟩ := hall s
    exact hcode t h
  | fdec =>
    obtain ⟨-, hall⟩ := fdecResult
    obtain ⟨-, -, -, -, hcode⟩ := hall s
    exact hcode t h

theorem eq_fhenc_of_mem_commandCodes {i : Instr} (h : 0x11 ∈ commandCodes i) : i = .fhenc := by
  revert h
  cases i <;> decide

theorem eq_decode_of_mem_commandCodes {i : Instr} (h : 0x21 ∈ commandCodes i) : i = .fhdec ∨ i = .fdec := by
  revert h
  cases i <;> decide

/-- FHENC reports 0x11 only from its capacity check (R134). -/
theorem fhenc_short_of_code {s t : State} (h : exec .fhenc s = .next t) (hc : t.statusCode = 0x11) :
    s.outCap.toNat < tier s.tyIn.toNat + tier s.lenIn.toNat := by
  rcases execFhenc_cases s with ⟨-, he⟩ | ⟨-, -, he⟩ | ⟨-, -, -, hshort, -⟩ | ⟨-, -, -, -, he⟩
  · exact absurd ((statusCode_of_next he h).symm.trans hc) (by decide)
  · exact absurd ((statusCode_of_next he h).symm.trans hc) (by decide)
  · exact hshort
  · exact absurd ((statusCode_of_next he h).symm.trans hc) (by decide)

/-- Settles O36: the header decode has one error, and the two codes stand in the lists of the commands named. -/
theorem truncatedHeaderIsWrapped : Obligations.TruncatedHeaderIsWrapped := by
  refine ⟨fun bs e h => ?_, fun i s t h hc => ?_, fun i s t h hc => ?_⟩
  · cases frameHeaderDecode_error_kind h
    exact ⟨rfl, rfl⟩
  · obtain rfl := eq_fhenc_of_mem_commandCodes (hc ▸ exec_statusCode_mem_commandCodes h)
    exact ⟨rfl, fhenc_short_of_code h hc⟩
  · exact eq_decode_of_mem_commandCodes (hc ▸ exec_statusCode_mem_commandCodes h)

/-- Settles O37: both commands read the same header, and fail alike before the payload check. -/
theorem fhdecAndFdecAgree : Obligations.FhdecAndFdecAgree := by
  intro s
  refine ⟨fun t h hc => ?_, fun u h hc => ?_⟩
  · obtain ⟨hd, n, hl⟩ := fdecLocates_of_ok h hc
    have hfits := hl.fits
    have hlt := s.inLen.isLt
    refine ⟨_, exec_fhdec_of_header hl.window hl.header, rfl, ?_⟩
    rw [hl.state]
    refine ⟨rfl, rfl, ?_⟩
    simp only [State.completed, BitVec.toNat_ofNat]
    omega
  · rcases execFhdec_cases s with ⟨hbad, he⟩ | ⟨-, -, he⟩ | ⟨hw, bs, hr, hd, he⟩ | ⟨-, _, _, _, -, -, he⟩ <;>
      cases he.symm.trans h
    · exact ⟨_, exec_of_not_windowFor (i := .fdec) hbad, rfl⟩
    · exact ⟨_, exec_fdec_of_truncated hw (Option.map_eq_some_iff.2 ⟨bs, hr, hd⟩), rfl⟩
    · exact absurd rfl hc

end Sys2Proof.Machine
end

section
/-! PROOFS. The obligations of 60_exceptions.md: what every completion keeps (R164), what an error completion changes (R165),
and the completion codes of each command (R160, R162). -/

namespace Sys2Proof.Machine

/-! ### The state after a completion -/

/-- A command that gives a next state ends in one of R164's and R165's two completions of the state it started in. -/
theorem exec_next_cases {i : Instr} {s t : State} (h : exec i s = .next t) :
    (∃ c, c ≠ .ok ∧ t = raise c s) ∨ (∃ r, t = complete r (storeOut s.outOff.toNat (s.encoded i) s)) := by
  rcases exec_stores i s with ⟨c, hc, he⟩ | ⟨r, he⟩ | he <;> cases he.symm.trans h
  · exact .inl ⟨c, hc, rfl⟩
  · exact .inr ⟨r, rfl⟩

/-- Settles O23: neither completion writes more than results, STATUS and `pending`, and the OUT store before a normal one
writes OUT alone. -/
theorem commandsKeepEverythingElse : Obligations.CommandsKeepEverythingElse := by
  intro i s t h
  rcases exec_next_cases h with ⟨c, -, rfl⟩ | ⟨r, rfl⟩
  · simp
  · simp

/-- A nonzero code is the mark of an error completion of the state the command started in, without any store (R165). -/
theorem exec_eq_raise_of_error {i : Instr} {s t : State} (h : exec i s = .next t) (hc : t.statusCode ≠ 0x00) :
    ∃ c, t = raise c s := by
  rcases exec_next_cases h with ⟨c, -, ht⟩ | ⟨r, rfl⟩
  · exact ⟨c, ht⟩
  · exact absurd rfl hc

/-- Settles O26: the next state is `raise` of the state before, which writes zeros to the results and keeps the rest. -/
theorem errorsArePrecise : Obligations.ErrorsArePrecise := by
  intro i s t h hc
  obtain ⟨c, rfl⟩ := exec_eq_raise_of_error h hc
  simp [State.resultsZero]

/-! ### The numbers of the errors -/

/-- The rows of R160's table. -/
def allCodes : List Code :=
  [.ok, .varintBufferTooSmall, .varintValueTooLarge, .varintInvalidEncoding, .frameBufferTooSmall, .frameLengthExceedsInput,
   .frameVarintBufferTooSmall, .frameVarintValueTooLarge, .frameVarintInvalidEncoding, .illegalCommand, .windowError,
   .pending, .none]

theorem mem_allCodes (c : Code) : c ∈ allCodes := by
  cases c <;> decide

/-- R160's table has no number twice. -/
theorem codeByte_injective : Function.Injective codeByte := fun c c' h =>
  List.inj_on_of_nodup_map (f := codeByte) (l := allCodes) (by decide) (mem_allCodes c) (mem_allCodes c') h

theorem varintErrorCode_injective : Function.Injective varintErrorCode := by
  intro e e' h
  cases e <;> cases e' <;> cases h <;> rfl

theorem frameErrorCode_injective : Function.Injective frameErrorCode := by
  rintro (_ | _ | (_ | _ | _)) (_ | _ | (_ | _ | _)) h <;> cases h <;> rfl

/-- A wrapped varint error keeps the number of its kind under 0x20 (R162). -/
theorem codeByte_wrapped (e : VarIntError) :
    codeByte (frameErrorCode (.varint e)) = 0x20 ||| codeByte (varintErrorCode e) := by
  cases e <;> decide

/-- Settles O27: different errors have different codes and different codes different numbers; the lists are `commandCodes`. -/
theorem eachCommandHasItsCodes : Obligations.EachCommandHasItsCodes := by
  refine ⟨codeByte_wrapped, fun e e' h => varintErrorCode_injective (codeByte_injective h),
    fun e e' h => frameErrorCode_injective (codeByte_injective h), fun s t => ?_⟩
  have hcodes : ∀ i, exec i s = .next t → t.statusCode ∈ commandCodes i := fun i => exec_statusCode_mem_commandCodes
  exact ⟨hcodes .vlen, hcodes .venc, hcodes .vdec, hcodes .fhdec, hcodes .fhenc, hcodes .fdec⟩

end Sys2Proof.Machine
end

section
/-! PROOFS. The obligations of 70_reset_and_hazards.md: accesses while a command is in flight (R196 to R198), unwritten bytes
(R201), stable results (R200), reset in flight (R191 to R193), and how a command ends (R203, R205). -/

namespace Sys2Proof.Machine

/-! ### Host accesses while a command is in flight -/

/-- Settles O44, by where each write lands. -/
theorem writeWhileBusyFaults : Obligations.WriteWhileBusyFaults := by
  intro s v hp hb
  refine ⟨fun off hmem => ?_, fun i hi => ?_, fun j hj => ?_, fun off hmem => ?_, fun off h1 h2 h3 => ?_,
    fun off h1 harea => ?_⟩
  · obtain ⟨r, hw, rfl⟩ := exists_writable_of_mem hmem
    exact hostAccess_writeReg_busy v hw hb
  · simp [hostAccess_write_of_locate v (locate_inByte hp hi), hostWrite, hb]
  · simp [hostAccess_write_of_locate v (locate_outByte hp hj), hostWrite, hb]
  · obtain ⟨r, hw, rfl⟩ := exists_readOnly_of_mem hmem
    exact hostAccess_writeReg_readOnly s v hw
  · exact hostAccess_write_reserved v (locate_reservedReg h1 h2 h3)
  · exact hostAccess_write_reserved v (locate_reservedArea hp le_rfl (by omega))

/-- The RW registers, each with its value and its offset (R20). -/
theorem exists_writable_value_of_mem {s : State} {v : Word} {off : Nat}
    (h : (v, off) ∈ [(s.cmd, 0x000), (s.valueIn, 0x010), (s.tyIn, 0x018), (s.lenIn, 0x020), (s.inOff, 0x028),
      (s.inLen, 0x030), (s.outOff, 0x038), (s.outCap, 0x040)]) :
    ∃ r, isWritable r = true ∧ readReg r s = v ∧ regOffset r = off := by
  have hmap : (v, off) ∈ (allRegs.filter isWritable).map fun r => (readReg r s, regOffset r) := h
  obtain ⟨r, hr, heq⟩ := List.mem_map.1 hmap
  cases heq
  exact ⟨r, (List.mem_filter.1 hr).2, rfl, rfl⟩

/-- The offsets of the result registers (R20, R28). -/
theorem exists_result_offset_of_mem {off : Nat} (h : off ∈ [0x048, 0x050, 0x058, 0x060, 0x068, 0x070]) :
    ∃ r, isResult r = true ∧ regOffset r = off := by
  have hmap : off ∈ (allRegs.filter isResult).map regOffset := h
  obtain ⟨r, hr, rfl⟩ := List.mem_map.1 hmap
  exact ⟨r, (List.mem_filter.1 hr).2, rfl⟩

/-- A read of a result register while BUSY = 1 returns a free value (R197; Log 4). -/
theorem hostAccess_readResult_busy {s : State} {r : Reg} (hr : isResult r = true) (hb : s.busy = true) :
    hostAccess (.read 8 (s.params.base + regOffset r)) s = .next (answerAnyWord s) := by
  simp [hostAccess_read_of_locate (locate_reg s.params r), hostRead, hr, hb]

/-- With BUSY = 1 the invariant fixes CODE (R23, R24). -/
theorem State.Inv.statusCode_of_busy {s : State} (h : s.Inv) (hb : s.busy = true) : s.statusCode = codeByte .pending := by
  obtain ⟨w, hw⟩ := Option.isSome_iff_exists.1 (h.busy.symm.trans hb)
  exact (h.inFlight w hw).2

/-- Settles O45: STATUS and the RW registers are no result registers, and the six others are. -/
theorem registerReadsWhileBusy : Obligations.RegisterReadsWhileBusy := by
  intro s h hb
  refine ⟨?_, fun v off hmem => ?_, fun off hmem => ?_⟩
  · have hread := hostAccess_readReg (s := s) (r := .status) (.inr rfl)
    rwa [show readReg .status s = 0x1FE by rw [readReg, hb, h.statusCode_of_busy hb]; decide] at hread
  · obtain ⟨r, hw, rfl, rfl⟩ := exists_writable_value_of_mem hmem
    exact hostAccess_readReg (.inr (isResult_of_isWritable hw))
  · obtain ⟨r, hr, rfl⟩ := exists_result_offset_of_mem hmem
    exact hostAccess_readResult_busy hr hb

/-- A byte read of IN, busy or not (R198, R201). -/
theorem hostAccess_readIn {s : State} {i : Nat} (hp : s.params.wf = true) (hi : i < s.params.inMax) :
    hostAccess (.read 1 (s.params.base + 0x10000 + i)) s = .next (answerByte (s.inBuf.read i) s) :=
  hostAccess_read_of_locate (locate_inByte hp hi)

/-- A byte read of OUT while BUSY = 0 (R198, R201). -/
theorem hostAccess_readOut {s : State} {j : Nat} (hp : s.params.wf = true) (hj : j < s.params.outMax)
    (hb : s.busy = false) :
    hostAccess (.read 1 (s.params.base + 0x20000 + j)) s = .next (answerByte (s.outBuf.read j) s) := by
  simp [hostAccess_read_of_locate (locate_outByte hp hj), hostRead, hb]

/-- A byte read of OUT that returns a free byte: while BUSY = 1, or of an unwritten byte (R198, R201; Log 4). -/
theorem hostAccess_readOut_free {s : State} {j : Nat} (hp : s.params.wf = true) (hj : j < s.params.outMax)
    (hfree : s.busy = true ∨ s.outBuf.read j = none) :
    hostAccess (.read 1 (s.params.base + 0x20000 + j)) s = .next (answerAnyByte s) := by
  rw [hostAccess_read_of_locate (locate_outByte hp hj), hostRead]
  split
  · rfl
  · next hb => rw [hfree.resolve_left hb, answerByte]

/-- Settles O46: a read of IN or of an idle OUT answers what the buffer holds there. -/
theorem bufferReads : Obligations.BufferReads := by
  intro s hp
  refine ⟨fun i b hi hread => ?_, fun i hi hread => ?_, fun j b hj hb hread => ?_, fun j hj => hostAccess_readOut_free hp hj⟩
  · rw [hostAccess_readIn hp hi, hread]; rfl
  · rw [hostAccess_readIn hp hi, hread]; rfl
  · rw [hostAccess_readOut hp hj hb, hread]; rfl

/-! ### Unwritten input -/

theorem none_mem_memRead {m : Memory} {a n : Nat} : none ∈ memRead m a n ↔ ∃ k < n, m.read (a + k) = none := by
  simp [List.mem_iff_getElem?, memRead_getElem?]

/-- A varint decode of a range of a buffer takes an unwritten byte exactly where R55's read set has one. -/
theorem varintBytesRead_memRead_eq_none {m : Memory} {off n : Nat} :
    varintBytesRead (memRead m off n) = none ↔ VarintReadsUnwritten m off n := by
  cases n with
  | zero => simp [memRead, VarintReadsUnwritten]
  | succ n =>
    cases hb : m.read off with
    | none => simp [memRead, VarintReadsUnwritten, hb]
    | some b =>
      have htake : (some b :: memRead m (off + 1) n).take (2 ^ (tagField b).toNat) =
          memRead m off (min (2 ^ (tagField b).toNat) (n + 1)) := by
        rw [← memRead_take, memRead, hb]
      rw [memRead, hb, varintBytesRead_some, memRead_length, htake]
      split
      · next hle => simp [allWritten_eq_none, none_mem_memRead, VarintReadsUnwritten, hb, hle]
      · next hlt => simp [VarintReadsUnwritten, hb, hlt]

/-- A varint that was read and decodes: its first byte, the length that byte's tag stands for, and that no byte of that length
is unwritten. -/
theorem varintBytesRead_memRead_ok {m : Memory} {off n v L : Nat} {bs : List Byte}
    (hr : varintBytesRead (memRead m off n) = some bs) (hd : varintDecode bs = .ok (v, L)) :
    L ≤ n ∧ (∀ k < L, m.read (off + k) ≠ none) ∧ ∃ b, m.read off = some b ∧ L = 2 ^ (tagField b).toNat := by
  obtain ⟨-, hfront, hle⟩ := varintBytesRead_decode_ok hr hd
  obtain ⟨b, rest, rfl, hL, -⟩ := varintDecode_ok hd
  rw [memRead_length] at hle
  rw [memRead_take, Nat.min_eq_left hle] at hfront
  refine ⟨hle, fun k hk hnone => ?_, b, ?_, hL⟩
  · have hmem : none ∈ memRead m off L := none_mem_memRead.2 ⟨k, hk, hnone⟩
    simp [← hfront] at hmem
  · have hpos : 0 < L := hL ▸ Nat.two_pow_pos _
    have hhead := memRead_getElem? m off L 0
    rw [← hfront, if_pos hpos] at hhead
    exact (Option.some.inj hhead).symm

/-- A varint that was read and fails to decode: the range is shorter than its first byte's tag says. -/
theorem not_tagLength_le_of_decode_error {m : Memory} {off n : Nat} {bs : List Byte} {e : VarIntError} {b : Byte}
    (hr : varintBytesRead (memRead m off n) = some bs) (hd : varintDecode bs = .error e) (hb : m.read off = some b) :
    ¬ 2 ^ (tagField b).toNat ≤ n := by
  cases n with
  | zero => simp
  | succ n =>
    rcases varintBytesRead_decode_error hr hd with hnil | ⟨c, l, hcons, hshort⟩
    · cases hnil
    · rw [memRead_length] at hshort
      rw [memRead, hb] at hcons
      cases hcons
      omega

/-- A header decode of a range of a buffer takes an unwritten byte exactly where R55's read set has one: by what the first
varint makes of the range. -/
theorem headerBytesRead_memRead_eq_none {m : Memory} {off n : Nat} :
    headerBytesRead (memRead m off n) = none ↔ HeaderReadsUnwritten m off n := by
  cases hr : varintBytesRead (memRead m off n) with
  | none => exact iff_of_true (headerBytesRead_first_none hr) (.inl (varintBytesRead_memRead_eq_none.1 hr))
  | some bs =>
    have hfirst : ¬ VarintReadsUnwritten m off n := by
      rw [← varintBytesRead_memRead_eq_none, hr]
      simp
    cases hd : varintDecode bs with
    | error e =>
      rw [headerBytesRead_first_error hr hd]
      refine iff_of_false nofun ?_
      rintro (h | ⟨b, hb, hle, -⟩)
      · exact hfirst h
      · exact not_tagLength_le_of_decode_error hr hd hb hle
    | ok p =>
      obtain ⟨v, L⟩ := p
      obtain ⟨hle, hwritten, b, hb, rfl⟩ := varintBytesRead_memRead_ok hr hd
      rw [headerBytesRead_first_ok hr hd, Option.map_eq_none_iff, memRead_drop, varintBytesRead_memRead_eq_none]
      refine ⟨fun h => .inr ⟨b, hb, hle, hwritten, h⟩, ?_⟩
      rintro (h | ⟨c, hc, -, -, h⟩)
      · exact absurd h hfirst
      · cases hb.symm.trans hc
        exact h

theorem exec_vdec_fault_iff {s : State} (hw : s.InWindow) :
    exec .vdec s = .fault .readUnwrittenInput ↔ varintBytesRead (inSlice s) = none := by
  rcases execVdec_cases s with ⟨hbad, -⟩ | ⟨-, hr, he⟩ | ⟨-, _, hr, -, he⟩ | ⟨-, _, _, _, hr, -, he⟩
  · exact absurd hw hbad
  all_goals simp [exec, he, hr]

theorem exec_fhdec_fault_iff {s : State} (hw : s.InWindow) :
    exec .fhdec s = .fault .readUnwrittenInput ↔ headerBytesRead (inSlice s) = none := by
  rcases execFhdec_cases s with ⟨hbad, -⟩ | ⟨-, hr, he⟩ | ⟨-, _, hr, -, he⟩ | ⟨-, _, _, _, hr, -, he⟩
  · exact absurd hw hbad
  all_goals simp [exec, he, hr]

theorem exec_fdec_fault_iff {s : State} (hw : s.InWindow) :
    exec .fdec s = .fault .readUnwrittenInput ↔ headerBytesRead (inSlice s) = none := by
  rcases execFdec_cases s with
    ⟨hbad, -⟩ | ⟨-, hr, he⟩ | ⟨-, _, hr, -, he⟩ | ⟨-, _, _, _, hr, -, ⟨-, he⟩ | ⟨-, he⟩⟩
  · exact absurd hw hbad
  all_goals simp [exec, he, hr]

theorem exec_next_or_fault (i : Instr) (s : State) :
    (∃ t, exec i s = .next t) ∨ exec i s = .fault .readUnwrittenInput := by
  rcases exec_cases i s with ⟨c, -, he⟩ | ⟨r, bs, -, he⟩ | he
  · exact .inl ⟨_, he⟩
  · exact .inl ⟨_, he⟩
  · exact .inr he

/-- VLEN and the encoders read no byte of IN, and always complete (R55). -/
theorem exec_next_of_not_decode {i : Instr} (hi : i = .vlen ∨ i = .venc ∨ i = .fhenc) (s : State) :
    ∃ t, exec i s = .next t := by
  rcases hi with rfl | rfl | rfl
  · rcases execVlen_cases s with ⟨-, he⟩ | ⟨-, he⟩ <;> exact ⟨_, he⟩
  · rcases execVenc_cases s with ⟨-, he⟩ | ⟨-, -, he⟩ | ⟨-, -, -, he⟩ | ⟨-, -, -, he⟩ <;> exact ⟨_, he⟩
  · rcases execFhenc_cases s with ⟨-, he⟩ | ⟨-, -, he⟩ | ⟨-, -, -, -, he⟩ | ⟨-, -, -, -, he⟩ <;> exact ⟨_, he⟩

/-- Settles O30: a decode faults where the bytes it reads of the slice are not all written, which is R55's read set. -/
theorem unwrittenInputFaults : Obligations.UnwrittenInputFaults := by
  intro s
  refine ⟨fun hw => (exec_vdec_fault_iff hw).trans varintBytesRead_memRead_eq_none,
    fun hw => (exec_fhdec_fault_iff hw).trans headerBytesRead_memRead_eq_none,
    fun hw => (exec_fdec_fault_iff hw).trans headerBytesRead_memRead_eq_none,
    fun i => exec_next_or_fault i s, fun i hi => exec_next_of_not_decode hi s, fun i hp hi hread => ?_,
    fun j hp hj hread => hostAccess_readOut_free hp hj (.inr hread)⟩
  rw [hostAccess_readIn hp hi, hread]
  rfl

/-! ### STATUS and the results between commands -/

/-- What a completion reports: STATUS, the word in flight and the six results (R27, R28). -/
structure Report where
  pending : Option Word
  busy : Bool
  statusCode : Byte
  resValue : Word
  resTy : Word
  resLen : Word
  resCount : Word
  resPayloadOff : Word
  resPayloadLen : Word

/-- The report a state holds. -/
def State.report (s : State) : Report where
  pending := s.pending
  busy := s.busy
  statusCode := s.statusCode
  resValue := s.resValue
  resTy := s.resTy
  resLen := s.resLen
  resCount := s.resCount
  resPayloadOff := s.resPayloadOff
  resPayloadLen := s.resPayloadLen

/-- A host access starts a command, by a CMD write while BUSY = 0, or leaves STATUS and the results (R58). -/
theorem hostAccess_starts_or_report {a : Access} {s t : State} (h : hostAccess a s = .next t) :
    (∃ w, a = .write 8 (s.params.base + regOffset .cmd) w ∧ s.busy = false ∧ t = startCommand w s) ∨
      t.report = s.report := by
  rcases hostAccess_next h with ⟨_, _, _, _, -, rfl⟩ | ⟨_, _, v, rfl, rfl | ⟨hb, r, rfl, rfl, -, rfl⟩ |
    ⟨-, _, -, -, -, rfl⟩ | ⟨-, _, -, -, -, rfl⟩⟩
  · exact .inr rfl
  · exact .inr rfl
  · cases r with
    | cmd => exact .inl ⟨v, rfl, hb, rfl⟩
    | _ => exact .inr rfl
  · exact .inr rfl
  · exact .inr rfl

/-- A step that is no reset, with nothing in flight before and after it, leaves STATUS and the results. -/
theorem step_report_of_idle {s t : State} (h : step s = .next t) (hreset : ∀ rest, s.agenda ≠ .reset :: rest)
    (hs : s.pending = none) (ht : t.pending = none) : t.report = s.report := by
  rcases step_next h with ⟨-, hc⟩ | ⟨rest, -, hc⟩ | ⟨a, rest, -, ha⟩ | ⟨rest, hag, -⟩
  · cases (completionStep_of_idle hs).symm.trans hc
    rfl
  · cases (completionStep_of_idle (s := { s with agenda := rest }) hs).symm.trans hc
    rfl
  · rcases hostAccess_starts_or_report ha with ⟨w, -, -, rfl⟩ | hsame
    · cases ht
    · exact hsame
  · exact absurd hag (hreset rest)

/-- A host access that changes OUT is a byte write to it. -/
theorem hostAccess_outBuf_changed {a : Access} {s t : State} (h : hostAccess a s = .next t) (hne : t.outBuf ≠ s.outBuf) :
    ∃ j v, a = .write 1 (s.params.base + 0x20000 + j) v ∧ j < s.params.outMax := by
  rcases hostAccess_next h with ⟨_, _, _, _, -, rfl⟩ | ⟨_, _, v, rfl, rfl | ⟨-, r, -, -, -, rfl⟩ |
    ⟨-, _, -, -, -, rfl⟩ | ⟨-, j, rfl, rfl, hj, rfl⟩⟩
  · exact absurd rfl hne
  · exact absurd rfl hne
  · cases r <;> exact absurd rfl hne
  · exact absurd rfl hne
  · exact ⟨j, v, rfl, hj⟩

/-- A completion step that changes OUT is the success of VENC or FHENC. -/
theorem completionStep_outBuf_changed {s t : State} (h : completionStep s = .next t) (hne : t.outBuf ≠ s.outBuf) :
    t.statusCode = 0x00 ∧ (s.pending = some 0x2 ∨ s.pending = some 0x5) := by
  rcases completionStep_next h with ⟨-, rfl⟩ | ⟨w, hw, ⟨c, -, rfl⟩ | ⟨i, r, bs, hd, -, hbs, rfl⟩⟩
  · exact absurd rfl hne
  · exact absurd rfl hne
  · rw [hw, decode_eq_ok_iff.1 hd]
    rcases hbs with rfl | ⟨rfl | rfl, -⟩
    · exact absurd rfl hne
    · exact ⟨rfl, .inl rfl⟩
    · exact ⟨rfl, .inr rfl⟩

/-- Settles O50, by the kinds of step. -/
theorem resultsAreStable : Obligations.ResultsAreStable := by
  intro s t h hreset
  refine ⟨fun hs ht => ?_, fun hne => ?_⟩
  · have hsame := step_report_of_idle h hreset hs ht
    exact ⟨congrArg Report.statusCode hsame, congrArg Report.busy hsame, congrArg Report.resValue hsame,
      congrArg Report.resTy hsame, congrArg Report.resLen hsame, congrArg Report.resCount hsame,
      congrArg Report.resPayloadOff hsame, congrArg Report.resPayloadLen hsame⟩
  · rcases step_next h with ⟨hag, hc⟩ | ⟨rest, hag, hc⟩ | ⟨a, rest, hag, ha⟩ | ⟨rest, hag, -⟩
    · exact .inr ⟨.inl hag, completionStep_outBuf_changed hc hne⟩
    · exact .inr ⟨.inr ⟨rest, hag⟩, completionStep_outBuf_changed (s := { s with agenda := rest }) hc hne⟩
    · obtain ⟨j, v, rfl, hj⟩ := hostAccess_outBuf_changed ha hne
      exact .inl ⟨j, v, rest, hag, hj⟩
    · exact absurd hag (hreset rest)

/-! ### Reset -/

/-- Settles O53: the step is `assertReset`, and with BUSY = 0 a CMD write starts a command. -/
theorem resetAbandonsTheCommand : Obligations.ResetAbandonsTheCommand := by
  intro s rest hag _
  exact ⟨assertReset { s with agenda := rest }, step_of_agenda_cons hag, rfl, rfl, rfl, rfl, rfl,
    ⟨rfl, rfl, rfl, rfl, rfl, rfl⟩, fun _ => rfl, completionStep_of_idle rfl,
    fun w => ⟨_, hostAccess_writeReg (r := .cmd) w rfl rfl, rfl, rfl⟩⟩

/-- After reset both windows are the empty one at 0, which is legal (R54, R193). -/
theorem assertReset_windows (s : State) : (assertReset s).InWindow ∧ (assertReset s).OutWindow :=
  ⟨⟨Nat.zero_le _, Nat.zero_le _⟩, ⟨Nat.zero_le _, Nat.zero_le _⟩⟩

/-- Settles O54: every operand is 0, both windows are legal, and both slices are empty. -/
theorem zeroRegistersAreLegalOperands : Obligations.ZeroRegistersAreLegalOperands := by
  intro s
  obtain ⟨hin, hout⟩ := assertReset_windows s
  have hzero : (0 : Word).toNat ≤ max62 := Nat.zero_le _
  exact ⟨exec_vlen_of_le hzero, exec_venc_of_short hout hzero Nat.zero_lt_one, exec_vdec_of_empty hin rfl,
    exec_fhdec_of_truncated hin (.of_empty rfl), exec_fhenc_of_short hout hzero hzero Nat.zero_lt_two,
    exec_fdec_of_truncated hin (.of_empty rfl)⟩

/-! ### Runs -/

/-- A run takes as many entries of the agenda as it has steps, and keeps the parameters. -/
theorem runs_keeps {k : Nat} {s t : State} (h : Runs k s t) : t.agenda = s.agenda.drop k ∧ t.params = s.params := by
  induction k generalizing s with
  | zero => rw [runs_zero h]; exact ⟨rfl, rfl⟩
  | succ k ih =>
    obtain ⟨u, hu, hr⟩ := runs_succ h
    obtain ⟨hag, hparams⟩ := step_keeps hu
    rw [(ih hr).1, (ih hr).2, hag, hparams, List.drop_tail]
    exact ⟨rfl, rfl⟩

theorem State.Inv.runs {k : Nat} {s t : State} (h : s.Inv) (hr : Runs k s t) : t.Inv := by
  induction k generalizing s with
  | zero => rwa [runs_zero hr]
  | succ k ih =>
    obtain ⟨u, hu, hr⟩ := runs_succ hr
    exact ih (stepKeepsTheInvariant s u h hu) hr

theorem step_of_runs_one {s t : State} (h : Runs 1 s t) : step s = .next t := by
  obtain ⟨u, hu, hr⟩ := runs_succ h
  rwa [runs_zero hr]

/-- Where BUSY and the word in flight agree, a completion step leaves nothing in flight and BUSY = 0 (R27). -/
theorem completionStep_idle {s t : State} (hagree : s.busy = s.pending.isSome) (h : completionStep s = .next t) :
    t.busy = false ∧ t.pending = none := by
  rcases completionStep_next h with ⟨hp, rfl⟩ | ⟨w, -, ⟨c, -, rfl⟩ | ⟨i, r, bs, -, -, -, rfl⟩⟩
  · exact ⟨by rw [hagree, hp]; rfl, hp⟩
  · exact ⟨rfl, rfl⟩
  · exact ⟨rfl, rfl⟩

theorem step_completion_idle {s t : State} {rest : List Event} (hag : s.agenda = .completion :: rest)
    (hagree : s.busy = s.pending.isSome) (h : step s = .next t) : t.busy = false ∧ t.pending = none := by
  rw [step_of_agenda_completion hag] at h
  exact completionStep_idle (s := { s with agenda := rest }) hagree h

/-- With nothing in flight CODE is no 0xFE (R24). -/
theorem State.Inv.statusCode_ne_pending {s : State} (h : s.Inv) (hp : s.pending = none) : s.statusCode ≠ 0xFE := by
  intro hc
  have hmem := h.idleCode hp
  rw [hc] at hmem
  exact absurd hmem (by decide)

/-- Settles O57: the last step of the run finds the agenda empty, so it is a completion step. -/
theorem noCommandStaysInFlight : Obligations.NoCommandStaysInFlight := by
  intro s t h hr
  obtain ⟨u, hu, hlast⟩ := runs_split hr
  have huag : u.agenda = [] := by rw [(runs_keeps hu).1, List.drop_length]
  have hc : completionStep u = .next t := step_of_agenda_nil huag ▸ step_of_runs_one hlast
  have htag : t.agenda = [] := (completionStep_keeps hc).1.trans huag
  obtain ⟨hb, hp⟩ := completionStep_idle (h.runs hu).busy hc
  exact ⟨htag, hp, hb, (h.runs hr).statusCode_ne_pending hp, (step_of_agenda_nil htag).trans (completionStep_of_idle hp)⟩

/-! ### Polling -/

theorem statusWord_busyBit (code : Byte) (busy : Bool) : (statusWord code busy).getLsbD 8 = busy := by
  cases busy <;> simp [statusWord]

theorem statusWord_idle (code : Byte) : statusWord code false = code.setWidth 64 := by
  simp [statusWord]

/-- A step that reads STATUS. -/
theorem step_readStatus {s : State} {rest : List Event}
    (hag : s.agenda = .host (.read 8 (s.params.base + regOffset .status)) :: rest) :
    step s = .next { s with agenda := rest, readData := some (statusWord s.statusCode s.busy) } := by
  rw [step_of_agenda_cons hag]
  exact hostAccess_readReg (s := { s with agenda := rest }) (r := .status) (.inr rfl)

/-- A step that reads STATUS reads it idle exactly if BUSY = 0. -/
theorem readsIdleStatus_iff {s : State} :
    ReadsIdleStatus s ↔
      s.busy = false ∧ ∃ rest, s.agenda = .host (.read 8 (s.params.base + regOffset .status)) :: rest := by
  constructor
  · rintro ⟨rest, t, v, hag, hstep, hread, hbit⟩
    cases (step_readStatus hag).symm.trans hstep
    cases hread
    exact ⟨(statusWord_busyBit _ _).symm.trans hbit, rest, hag⟩
  · rintro ⟨hb, rest, hag⟩
    exact ⟨rest, _, _, hag, step_readStatus hag, rfl, (statusWord_busyBit _ _).trans hb⟩

/-- Host accesses that start no command, because BUSY = 1 or because none of them writes CMD, leave STATUS and the results, as
far as the run goes. -/
theorem runs_hosts_report {k : Nat} {s t : State} {as : List Access} {rest : List Event}
    (hag : s.agenda = as.map .host ++ rest)
    (hno : s.busy = true ∨ ∀ v, Access.write 8 (s.params.base + regOffset .cmd) v ∉ as)
    (hk : k ≤ as.length) (hr : Runs k s t) : t.report = s.report := by
  induction k generalizing s as with
  | zero => rw [runs_zero hr]
  | succ k ih =>
    obtain ⟨u, hu, hr⟩ := runs_succ hr
    match as, hk with
    | a :: as, hk =>
      obtain ⟨huag, huparams⟩ := step_keeps hu
      rw [step_of_agenda_cons hag] at hu
      rcases hostAccess_starts_or_report hu with ⟨w, rfl, hb, -⟩ | hsame
      · rcases hno with hbusy | hnone
        · cases hb.symm.trans hbusy
        · exact absurd List.mem_cons_self (hnone w)
      · have hub : u.busy = s.busy := congrArg Report.busy hsame
        refine (ih (as := as) (by rw [huag, hag]; rfl) ?_ (Nat.le_of_succ_le_succ hk) hr).trans hsame
        rw [hub, huparams]
        exact hno.imp_right fun hnone v hv => hnone v (List.mem_cons_of_mem a hv)

/-- The host's accesses before a completion, the completion, its accesses after it, and a STATUS read. -/
def pollAgenda (p : Params) (before after : List Access) (rest : List Event) : List Event :=
  before.map .host ++
    .completion :: (after.map .host ++ .host (.read 8 (p.base + regOffset .status)) :: rest)

theorem pollAgenda_drop_before (p : Params) (before after : List Access) (rest : List Event) :
    (pollAgenda p before after rest).drop before.length =
      .completion :: (after.map .host ++ .host (.read 8 (p.base + regOffset .status)) :: rest) := by
  rw [pollAgenda, List.drop_left' (by rw [List.length_map])]

theorem pollAgenda_drop_after (p : Params) (before after : List Access) (rest : List Event) {j : Nat}
    (hj : j ≤ after.length) :
    (pollAgenda p before after rest).drop (before.length + (j + 1)) =
      (after.drop j).map .host ++ .host (.read 8 (p.base + regOffset .status)) :: rest := by
  rw [← List.drop_drop, pollAgenda_drop_before, List.drop_succ_cons, List.drop_append_of_le_length (by simpa using hj),
    List.map_drop]

theorem pollAgenda_drop_read (p : Params) (before after : List Access) (rest : List Event) :
    (pollAgenda p before after rest).drop (before.length + (after.length + 1)) =
      .host (.read 8 (p.base + regOffset .status)) :: rest := by
  rw [pollAgenda_drop_after _ _ _ _ le_rfl, List.drop_length]
  rfl

section
variable {s u : State} {before after : List Access} {rest : List Event}

/-- From BUSY = 1, up to the STATUS read: the completion ends the command, and no access after it starts another. -/
theorem runs_to_poll_idle (hagree : s.busy = s.pending.isSome) (hb : s.busy = true)
    (hag : s.agenda = pollAgenda s.params before after rest)
    (hafter : ∀ v, Access.write 8 (s.params.base + regOffset .cmd) v ∉ after)
    (hr : Runs (before.length + (after.length + 1)) s u) : u.busy = false ∧ u.pending = none := by
  obtain ⟨c, hc, hr⟩ := runs_split hr
  obtain ⟨d, hd, hr⟩ := runs_succ hr
  have hcr := runs_hosts_report hag (.inl hb) le_rfl hc
  have hcagree : c.busy = c.pending.isSome := by
    rwa [show c.busy = s.busy from congrArg Report.busy hcr, show c.pending = s.pending from congrArg Report.pending hcr]
  obtain ⟨hcag, hcparams⟩ := runs_keeps hc
  rw [hag, pollAgenda_drop_before] at hcag
  obtain ⟨hdag, hdparams⟩ := step_keeps hd
  obtain ⟨hdb, hdp⟩ := step_completion_idle hcag hcagree hd
  have hur := runs_hosts_report (by rw [hdag, hcag]; rfl) (.inr (by rwa [hdparams, hcparams])) le_rfl hr
  exact ⟨(congrArg Report.busy hur).trans hdb, (congrArg Report.pending hur).trans hdp⟩

/-- From BUSY = 1 to the STATUS read, no earlier step reads STATUS idle: before the completion BUSY is 1, and after it no access
but the last reads STATUS. -/
theorem not_readsIdleStatus_before_poll (hb : s.busy = true) (hag : s.agenda = pollAgenda s.params before after rest)
    (hafter : Access.read 8 (s.params.base + regOffset .status) ∉ after) {k : Nat}
    (hk : k < before.length + (after.length + 1)) (hr : Runs k s u) : ¬ ReadsIdleStatus u := by
  intro hidle
  obtain ⟨hub, rest', hread⟩ := readsIdleStatus_iff.1 hidle
  rcases le_or_gt k before.length with hle | hlt
  · have hsame : u.busy = s.busy := congrArg Report.busy (runs_hosts_report hag (.inl hb) hle hr)
    rw [hsame, hb] at hub
    cases hub
  · obtain ⟨j, rfl⟩ : ∃ j, k = before.length + (j + 1) := ⟨k - before.length - 1, by omega⟩
    have hj : j < after.length := by omega
    obtain ⟨huag, huparams⟩ := runs_keeps hr
    rw [hag, pollAgenda_drop_after _ _ _ _ hj.le, List.drop_eq_getElem_cons hj, hread, huparams] at huag
    have hhead : Access.read 8 (s.params.base + regOffset .status) = after[j] := by
      simpa using (List.cons.inj huag).1
    exact hafter (hhead ▸ List.getElem_mem hj)

end

theorem CommandEnds.not_lt {w : Word} {s t u : State} {n m : Nat} (h : CommandEnds w s n t) (h' : CommandEnds w s m u) :
    ¬ m < n := by
  obtain ⟨-, -, -, hfirst⟩ := h
  obtain ⟨-, -, ⟨x, hx, hidle⟩, -⟩ := h'
  exact fun hlt => hfirst m hlt x hx hidle

/-- A command has at most one end, since an end is the first idle STATUS read (R205). -/
theorem CommandEnds.unique {w : Word} {s t u : State} {n m : Nat} (h : CommandEnds w s n t) (h' : CommandEnds w s m u) :
    n = m ∧ t = u := by
  obtain rfl : n = m := le_antisymm (Nat.not_lt.1 (h.not_lt h')) (Nat.not_lt.1 (h'.not_lt h))
  obtain ⟨-, hr, -⟩ := h
  obtain ⟨-, hr', -⟩ := h'
  exact ⟨rfl, runs_unique hr hr'⟩

/-- A STATUS read after the completion returns the completion code (R86). -/
theorem poll_returns_code {s t : State} {before after : List Access} {rest : List Event} (h : s.Inv) (hb : s.busy = true)
    (hag : s.agenda = pollAgenda s.params before after rest)
    (hafter : ∀ v, Access.write 8 (s.params.base + regOffset .cmd) v ∉ after)
    (hr : Runs (before.length + (after.length + 1) + 1) s t) :
    t.readData = some (t.statusCode.setWidth 64) ∧ t.busy = false ∧ t.pending = none ∧ t.statusCode ≠ 0xFE ∧
      t.agenda = rest := by
  have ht := h.runs hr
  obtain ⟨u, hu, hlast⟩ := runs_split hr
  obtain ⟨hub, hup⟩ := runs_to_poll_idle h.busy hb hag hafter hu
  obtain ⟨huag, huparams⟩ := runs_keeps hu
  rw [hag, pollAgenda_drop_read, ← huparams] at huag
  cases (step_readStatus huag).symm.trans (step_of_runs_one hlast)
  exact ⟨by rw [hub, statusWord_idle], hub, hup, ht.statusCode_ne_pending hup, rfl⟩

/-- From the CMD write, the first STATUS read after the completion is the end of the command (R205). -/
theorem poll_is_commandEnd {s t : State} {w : Word} {before after : List Access} {rest : List Event} (hb : s.busy = false)
    (hag : s.agenda = .host (.write 8 (s.params.base + regOffset .cmd) w) :: pollAgenda s.params before after rest)
    (hcmd : ∀ v, Access.write 8 (s.params.base + regOffset .cmd) v ∉ after)
    (hstatus : Access.read 8 (s.params.base + regOffset .status) ∉ after)
    (hr : Runs (before.length + (after.length + 1) + 1 + 1) s t) :
    CommandEnds w s (before.length + (after.length + 1) + 1) t := by
  obtain ⟨v, hv, hrv⟩ := runs_succ hr
  have hstart : step s = .next (startCommand w { s with agenda := pollAgenda s.params before after rest }) := by
    rw [step_of_agenda_cons hag]
    exact hostAccess_writeReg (s := { s with agenda := pollAgenda s.params before after rest }) (r := .cmd) w rfl hb
  obtain ⟨hvb, hvagree, hvag, hvparams⟩ : v.busy = true ∧ v.busy = v.pending.isSome ∧
      v.agenda = pollAgenda v.params before after rest ∧ v.params = s.params := by
    cases hstart.symm.trans hv
    exact ⟨rfl, rfl, rfl, rfl⟩
  rw [← hvparams] at hcmd hstatus
  obtain ⟨u, hu, -⟩ := runs_split hrv
  obtain ⟨hub, -⟩ := runs_to_poll_idle hvagree hvb hvag hcmd hu
  obtain ⟨huag, huparams⟩ := runs_keeps hu
  rw [hvag, pollAgenda_drop_read, ← huparams] at huag
  refine ⟨⟨hb, _, hag⟩, hr, ⟨u, runs_of_step hv hu, readsIdleStatus_iff.2 ⟨hub, rest, huag⟩⟩,
    fun k hk x hx => ?_⟩
  cases k with
  | zero =>
    rw [runs_zero hx, readsIdleStatus_iff]
    rintro ⟨-, _, hread⟩
    cases hag.symm.trans hread
  | succ k =>
    obtain ⟨y, hy, hx⟩ := runs_succ hx
    cases hv.symm.trans hy
    exact not_readsIdleStatus_before_poll hvb hvag hstatus (Nat.lt_of_succ_lt_succ hk) hx

/-- Settles O58: the run to the STATUS read, from the command in flight and from the CMD write, and the end's uniqueness. -/
theorem pollingSeesTheCompletion : Obligations.PollingSeesTheCompletion :=
  ⟨fun _ _ _ _ _ h hb hag hafter hr => poll_returns_code h hb hag hafter hr,
    fun _ _ _ _ _ _ hb hag hcmd hstatus hr => poll_is_commandEnd hb hag hcmd hstatus hr,
    fun _ _ _ _ _ _ h h' => h.unique h'⟩

end Sys2Proof.Machine
end
